-- ==== Sys2Proof/Word.lean ====
section
/-! DEFINITION. The bit-vector types the spec counts in (00_scope.md R20, R22, R23; 10_state.md R34). -/

namespace Sys2Proof

/-- A Word: a signed integer of N bits in two's complement (R23), the content of one register cell and
of one memory cell. N = 32 (R20, decision D1; DESIGN CHOICE, unsafe, assumption 1). `BitVec.toInt` is
the signed value. -/
abbrev Word := BitVec 32

/-- A Byte: an unsigned number in [0,255] (R23). Also the 8-bit memory address of an instruction (R50). -/
abbrev Byte := BitVec 8

/-- A Nib: an unsigned number in [0,15] (R23): an opcode, a register index or half an 8-bit operand. -/
abbrev Nib := BitVec 4

/-- One instruction word, always 16 bits (R70, R78). -/
abbrev InstrWord := BitVec 16

/-- The program counter: a 9-bit register (R34, decision D5). R35 confines it to [0,256]; the values
257 to 511 that nine bits also allow are ruled out by an invariant (`State.Inv`), not by the type
(assumption 5). -/
abbrev Pc := BitVec 9

end Sys2Proof
end

