-- ==== Sys2Proof/Config.lean ====
section
/-! DEFINITION. The parameters of 00_scope.md R20 that the spec names as arguments a model may take, each
at the value this spec chooses, and the one value the spec leaves open. -/

namespace Sys2Proof

/-- `ADD_OVERFLOW` (42_arithmetic.md R121, decision D2): what ADD does with a sum outside the Word range. -/
inductive AddOverflow where
  | wrap      -- reduce modulo 2^N
  | saturate  -- clamp to [-2^(N-1), 2^(N-1)-1]
  deriving DecidableEq, Repr

/-- `FETCH_CELL_POLICY` (20_memory.md R55, decision D3): how fetch turns a cell into a byte. -/
inductive FetchCellPolicy where
  | truncate8  -- bits [7:0] of the cell
  | fault      -- a cell outside [0,255] ends the run (FetchCellNotByte)
  deriving DecidableEq, Repr

/-- `PC_RESET` (R20, 10_state.md R34). -/
def Config.pcReset : Pc := 0x0A

/-- `MEM_INIT` (R20, 10_state.md R39, decision D4): what a memory cell reads as when nothing has written
it. This is the one definition of what an unlisted address of `Memory` holds (DESIGN CHOICE, unsafe,
assumption 4). -/
def Config.memInit : Word := 0

/-- The overflow policy ADD runs under (R121, decision D2; DESIGN CHOICE, unsafe, assumption 2). -/
def Config.addOverflow : AddOverflow := .wrap

/-- The policy fetch runs under (R55, decision D3; DESIGN CHOICE, unsafe, assumption 3). -/
def Config.fetchCellPolicy : FetchCellPolicy := .truncate8

/-- FREE VALUE (assumption 15): the port list of decision D13 does not say what happens when `ld_en` and
`step_en` are both asserted on a clock edge before the first step. That they are taken one after the other is the
model's choice (DESIGN CHOICE, see `edge`); which comes first is this value. True: the load, then the step. False:
the step, after which the load no longer counts (40_engine_cycle.md R103) and is lost. It has no body, so nothing
proved of the ports rests on either order. -/
opaque Config.loadBeforeStep : Bool

end Sys2Proof
end

