-- ==== Sys2Proof/Machine/State.lean ====
section
/-! DEFINITION. The state of the core, its reasons to stop, and the state after reset (10_state.md R30 to R44). -/

namespace Sys2Proof.Machine

/-- The memory array (R39): the cells that differ from `Config.memInit`, as address and Word, in one
canonical form (`Memory.wf`): addresses strictly rising and below 256, and no cell listed that holds
`Config.memInit`. A cell holds a whole Word, not a byte (20_memory.md R52), so an entry pairs an address
with a Word (assumption 14). -/
abbrev Memory := List (Nat × Word)

/-- The architectural state of one core: exactly the tuple of R30. -/
structure State where
  /-- `x`: 16 general purpose Words, none hardwired (R31). -/
  regs : Vector Word 16
  /-- `mem`: the 256 cells that hold program and data (R39). -/
  mem : Memory
  /-- `pc`: the address of the next instruction to fetch (R34). -/
  pc : Pc
  /-- `halt`: the HaltFlag, which only HALT sets (R36). -/
  halt : Bool
  /-- `pc_fault`: a step found the PC out of range, or under the `fault` policy a cell that is no byte
  (R37, R92). -/
  pcFault : Bool
  deriving DecidableEq, Repr

/-- The two arrays an interface access can address (R32; 20_memory.md R51). -/
inductive Space where
  | register
  | memory
  deriving DecidableEq, Repr

/-- The failures the core's parts return. -/
inductive Fault where
  /-- AddressOutOfRange (diagnostic code 4, 40_engine_cycle.md R98). Raised only by the checked accessors
  of Machine/HostInterface.lean on an index outside [0,16) or [0,256) (R32, R51). No step raises it: an
  instruction's fields cannot spell such an index (60_exceptions.md R141; decision D10). Safe: the spec
  names this failure, and nothing is read or written. -/
  | addressOutOfRange (space : Space) (address : Int)
  deriving DecidableEq, Repr

/-- The refusals of `exec`. -/
inductive Refusal where
  /-- An instruction that has no meaning yet, raised by an arm of `exec` by name. No arm does so: every
  instruction of the opcode table has its meaning. Safe: the machine stops. -/
  | notModelled (mnemonic : String)
  deriving DecidableEq, Repr

/-- The state right after construction (R44; 70_reset_and_hazards.md R160 phase 1): registers 0, the PC at
0x0A, both flags false, every cell `Config.memInit`. The load of R99 comes after it, from outside. -/
def State.reset : State where
  regs := Vector.replicate 16 0
  mem := []
  pc := Config.pcReset
  halt := false
  pcFault := false

end Sys2Proof.Machine
end

