-- ==== Sys2Proof/Machine/Flags.lean ====
section
/-! DEFINITION. The two Bools of the state and what is read off them (10_state.md R36 to R38). The core has no
condition codes and no status flags, so no instruction computes a flag from a result (R40). -/

namespace Sys2Proof.Machine

/-- `halt <- true` (R36). Nothing clears it but reset. -/
def State.setHalt (s : State) : State := { s with halt := true }

/-- `pc_fault <- true` (R37). Nothing clears it but reset. -/
def State.setPcFault (s : State) : State := { s with pcFault := true }

/-- `Halted ⇔ halt ∨ pc_fault` (R38); `isHalted()` of 40_engine_cycle.md R101 returns it. -/
def State.halted (s : State) : Bool := s.halt || s.pcFault

/-- The halt cause (R38), coded on the port `halt_cause` of decision D13. -/
inductive HaltCause where
  | running       -- 0
  | halt          -- 1
  | pcOutOfRange  -- 2
  deriving DecidableEq, Repr

/-- The cause of the Halted state (R38). The flags are never both true in a run (`State.Inv`); in a state that
has both, this definition answers HALT (DESIGN CHOICE, safe, assumption 18). -/
def State.haltCause (s : State) : HaltCause :=
  if s.halt then .halt else if s.pcFault then .pcOutOfRange else .running

end Sys2Proof.Machine
end

