-- ==== Sys2Proof/Syntax.lean ====
section
/-! DEFINITION. The instructions: one constructor per row of spec/opcode_table.json, in its order. -/

namespace Sys2Proof

/-- An instruction in decoded form: "a 4-bit opcode plus three 4-bit operand fields (R, S, T)" (00_scope.md
R27; 30_encoding.md R70). The constructor is the opcode; `r`, `s` and `t` are the fields R, S and T,
which every instruction has at the same places whatever it does with them (R74). A field that an
instruction does not use is kept, so that the word can be encoded back, and is ignored by its meaning
(R75). -/
inductive Instr where
  /-- LOAD1, opcode 0x1: R destination register, (S,T) memory address (R110). -/
  | load1 (r s t : Nib)
  /-- LOAD2, opcode 0x2: R destination register, (S,T) immediate (R111). -/
  | load2 (r s t : Nib)
  /-- STORE, opcode 0x3: R source register, (S,T) memory address (R112). -/
  | store (r s t : Nib)
  /-- MOVE, opcode 0x4: R destination register, S source register, T unused (R113). -/
  | move (r s t : Nib)
  /-- ADD, opcode 0x5: R destination register, S and T source registers (R120). -/
  | add (r s t : Nib)
  /-- JUMP, opcode 0xB: (S,T) target address, R unused (R130). -/
  | jump (r s t : Nib)
  /-- HALT, opcode 0xC: R, S and T unused (R131). -/
  | halt (r s t : Nib)
  deriving DecidableEq, Repr

end Sys2Proof
end

