-- ==== Sys2Proof/WellFormed.lean ====
section
/-! DEFINITION. Well-formedness of decoded words and of instructions, and the canonical form. -/

namespace Sys2Proof

/-- The four fields of an instruction word before dispatch (30_encoding.md R70, R76). -/
structure Fields where
  op : Nib
  r : Nib
  s : Nib
  t : Nib
  deriving DecidableEq, Repr

/-- The seven opcode values that name an instruction (R73). The other nine are the invalid opcodes (R77). -/
def definedOpcode (op : Nib) : Bool :=
  [0x1, 0x2, 0x3, 0x4, 0x5, 0xB, 0xC].contains op.toNat

/-- The fields of a word are well formed when their opcode names an instruction. Nothing else is asked:
the opcode alone selects the instruction (R73), and every value of R, S and T is a valid operand
(R71, R72) or an ignored one (R75). -/
def Fields.wellFormed (f : Fields) : Bool := definedOpcode f.op

/-- The fields an instruction stands for (R70, R73). -/
def Instr.fields : Instr → Fields
  | .load1 r s t => ⟨0x1, r, s, t⟩
  | .load2 r s t => ⟨0x2, r, s, t⟩
  | .store r s t => ⟨0x3, r, s, t⟩
  | .move r s t => ⟨0x4, r, s, t⟩
  | .add r s t => ⟨0x5, r, s, t⟩
  | .jump r s t => ⟨0xB, r, s, t⟩
  | .halt r s t => ⟨0xC, r, s, t⟩

/-- An instruction is well formed when its fields are. The types of its operands carry every bound the
spec sets (R71, R72), so no instruction fails this check; words fail `Fields.wellFormed`, and the
operands of assembly source, which are plain numbers, fail `Asm.wellFormed` (Machine/Assembly.lean). -/
def Instr.wellFormed (i : Instr) : Bool := i.fields.wellFormed

/-- The canonical form puts 0 in every field the instruction does not use (R75, R80; R113, R130, R131).
A non-canonical instruction is just as legal. -/
def Instr.canonical : Instr → Bool
  | .load1 _ _ _ => true
  | .load2 _ _ _ => true
  | .store _ _ _ => true
  | .move _ _ t => t == 0
  | .add _ _ _ => true
  | .jump r _ _ => r == 0
  | .halt r s t => r == 0 && s == 0 && t == 0

end Sys2Proof
end

