-- ==== Sys2Proof/Decode.lean ====
section
/-! DEFINITION. The decoder and the encoder (30_encoding.md R70, R73, R76 to R79; 20_memory.md R54). -/

namespace Sys2Proof

/-- Why bytes are no instruction. -/
inductive DecodeError where
  /-- The opcode is one of the nine invalid ones (R77). The word still has fields, and a step still runs
  it, as the InvalidOpcode case (R96). -/
  | invalidOpcode (f : Fields)
  /-- Fewer than the two cells an instruction takes (R78). No fetch can end so; only a list of bytes. -/
  | truncated
  deriving DecidableEq, Repr

/-- What a 16-bit word is: an instruction, or a word whose opcode dispatch rejects (R76, R95). -/
inductive Decoded where
  | instr (i : Instr)
  | invalidOpcode (f : Fields)
  deriving DecidableEq, Repr

/-- `decode` of R76: "pure, total", by bit masking alone. -/
def decodeFields (w : InstrWord) : Fields where
  op := w.extractLsb' 12 4
  r := w.extractLsb' 8 4
  s := w.extractLsb' 4 4
  t := w.extractLsb' 0 4

/-- The opcode map (R73) as dispatch reads it (R95): the opcode alone selects. -/
def selectInstr (f : Fields) : Decoded :=
  if f.op = 0x1 then .instr (.load1 f.r f.s f.t)
  else if f.op = 0x2 then .instr (.load2 f.r f.s f.t)
  else if f.op = 0x3 then .instr (.store f.r f.s f.t)
  else if f.op = 0x4 then .instr (.move f.r f.s f.t)
  else if f.op = 0x5 then .instr (.add f.r f.s f.t)
  else if f.op = 0xB then .instr (.jump f.r f.s f.t)
  else if f.op = 0xC then .instr (.halt f.r f.s f.t)
  else .invalidOpcode f

/-- Decoding of one word: its fields, then the opcode map. -/
def decode (w : InstrWord) : Decoded := selectInstr (decodeFields w)

/-- The word held in two byte-sized cells, "high byte then low byte" (R54). -/
def wordOfBytes (hi lo : Byte) : InstrWord := hi ++ lo

/-- The high byte of a word, the one at the lower address (R54). -/
def highByte (w : InstrWord) : Byte := w.extractLsb' 8 8

/-- The low byte of a word (R54). -/
def lowByte (w : InstrWord) : Byte := w.extractLsb' 0 8

/-- Decoding from a list of bytes in address order: an instruction takes exactly two (R78), and the rest
of the list is given back. -/
def decodeBytes : List Byte → Except DecodeError (Instr × List Byte)
  | hi :: lo :: rest =>
    match decode (wordOfBytes hi lo) with
    | .instr i => .ok (i, rest)
    | .invalidOpcode f => .error (.invalidOpcode f)
  | _ => .error .truncated

/-- A word numbered as spec/opcode_table.json numbers it (bit 0 least significant), its bits at and above
`nbits` taken as 0. -/
def tableWord (nbits w : Nat) : InstrWord := BitVec.ofNat 16 (w % 2 ^ nbits)

/-- The instruction the decoder reads from a table word laid out as the hardware stores it. -/
def decodeTableWord (nbits w : Nat) : Option Instr :=
  match decodeBytes [highByte (tableWord nbits w), lowByte (tableWord nbits w)] with
  | .ok (i, _) => some i
  | .error _ => none

/-- `encode_word` (R79): `(op << 12) | (R << 8) | (S << 4) | T`. -/
def encodeWord (op r s t : Nib) : InstrWord :=
  (op.setWidth 16 <<< 12) ||| (r.setWidth 16 <<< 8) ||| (s.setWidth 16 <<< 4) ||| t.setWidth 16

/-- The word of an instruction, from the opcode map (R73) and `encode_word` (R79). -/
def encode (i : Instr) : InstrWord := encodeWord i.fields.op i.fields.r i.fields.s i.fields.t

end Sys2Proof
end

