-- ==== Sys2Proof/Machine/Operands.lean ====
section
/-! DEFINITION. Every operand form and every computation on values: pack8, the immediate, the sum of ADD, the
byte that fetch takes from a cell (00_scope.md R23, R25; 20_memory.md R55; 30_encoding.md R72; 42_arithmetic.md R121). -/

namespace Sys2Proof.Machine

/-- `pack8(S, T) = (S << 4) | T` (R25): the 8-bit address, immediate or target of an instruction (R72). -/
def pack8 (s t : Nib) : Byte := (s.setWidth 8 <<< 4) ||| t.setWidth 8

/-- `zext_N` of a byte (R23): no field is ever sign-extended (R72). -/
def zextByte (b : Byte) : Word := b.setWidth 32

/-- `wrapN(v)` (R23): the Word congruent to the integer v modulo 2^N. -/
def wrapN (v : Int) : Word := BitVec.ofInt 32 v

/-- v clamped to the Word range, the `saturate` reading of R121. -/
def clampN (v : Int) : Word := BitVec.ofInt 32 (max (-2147483648) (min v 2147483647))

/-- The sum ADD writes, under either overflow policy (R121): taken over the integers, then narrowed. -/
def addUnder (p : AddOverflow) (a b : Word) : Word :=
  match p with
  | .wrap => wrapN (a.toInt + b.toInt)
  | .saturate => clampN (a.toInt + b.toInt)

/-- `byte(c)`: bits [7:0] of a cell (R55, R92). -/
def cellByte (c : Word) : Byte := c.setWidth 8

/-- The cell holds a value in [0,255], as a loaded one does (R55). -/
def isByteCell (c : Word) : Bool := decide (0 ≤ c.toInt ∧ c.toInt ≤ 255)

/-- The byte fetch takes from a cell, under either policy; none where `fault` reports FetchCellNotByte (R55, R92). -/
def fetchByte (p : FetchCellPolicy) (c : Word) : Option Byte :=
  match p with
  | .truncate8 => some (cellByte c)
  | .fault => if isByteCell c then some (cellByte c) else none

end Sys2Proof.Machine
end

