-- ==== Sys2Proof/Machine/Ops.lean ====
section
/-! DEFINITION. The named operations over registers, memory and the PC; fetch; and what a step is about to do
(20_memory.md R51 to R57; 40_engine_cycle.md R90 to R96; 60_exceptions.md R140 to R145). -/

namespace Sys2Proof.Machine

/-- The Word of the cell at address `a`; an unlisted cell holds `Config.memInit` (10_state.md R39). -/
def Memory.read : Memory → Nat → Word
  | [], _ => Config.memInit
  | (k, v) :: m, a => if k = a then v else Memory.read m a

/-- The canonical memory that holds `v` at `a` and is unchanged elsewhere. Writing `Config.memInit` removes
the entry. -/
def Memory.write : Memory → Nat → Word → Memory
  | [], a, v => if v = Config.memInit then [] else [(a, v)]
  | (k, w) :: m, a, v =>
    if k < a then (k, w) :: Memory.write m a v
    else if k = a then (if v = Config.memInit then m else (a, v) :: m)
    else if v = Config.memInit then (k, w) :: m else (a, v) :: (k, w) :: m

/-- The canonical form, from address `lo` on: addresses strictly rising and below 256 (R50), no entry
that holds what an unlisted address reads as. -/
def Memory.wfFrom : Nat → Memory → Bool
  | _, [] => true
  | lo, (k, v) :: m =>
    decide (lo ≤ k) && decide (k < 256) && decide (v ≠ Config.memInit) && Memory.wfFrom (k + 1) m

/-- The canonical form of a memory. -/
def Memory.wf (m : Memory) : Bool := Memory.wfFrom 0 m

/-- `x[i]` (10_state.md R31). -/
def State.reg (s : State) (i : Nib) : Word := s.regs[i.toNat]'i.isLt

/-- `x[i] <- v` (R31): no side effect beyond the addressed cell. -/
def State.setReg (s : State) (i : Nib) (v : Word) : State := { s with regs := s.regs.set i.toNat v i.isLt }

/-- `MemRead(a)` (20_memory.md R51): an 8-bit address is always in range (R141). -/
def State.memRead (s : State) (a : Byte) : Word := s.mem.read a.toNat

/-- `MemWrite(a, v)` (R51): the whole Word is kept (R52) and no other cell changes. -/
def State.memWrite (s : State) (a : Byte) (v : Word) : State := { s with mem := s.mem.write a.toNat v }

/-- `pc <- target` (R34). -/
def State.setPc (s : State) (pc : Pc) : State := { s with pc := pc }

/-- The PC advance (40_engine_cycle.md R93): right after the fetch and before dispatch, for every word. -/
def State.advance (s : State) : State := s.setPc (s.pc + 2)

/-- Where a PC in [0,255] points in the memory array. -/
def cellOfPc (pc : Pc) : Byte := pc.setWidth 8

/-- What a fetch gives (R91, R92). -/
inductive Fetched where
  | pcOutOfRange
  | cellNotByte
  | word (w : InstrWord)
  deriving DecidableEq, Repr

/-- The PC range check (R91), then the fetch (R92): the high byte from cell pc, the low byte from cell pc+1. -/
def fetchUnder (p : FetchCellPolicy) (s : State) : Fetched :=
  if 255 ≤ s.pc then .pcOutOfRange
  else
    match fetchByte p (s.memRead (cellOfPc s.pc)), fetchByte p (s.memRead (cellOfPc (s.pc + 1))) with
    | some hi, some lo => .word (wordOfBytes hi lo)
    | _, _ => .cellNotByte

/-- What one step does: one of the four conditions of 60_exceptions.md R143, or an instruction. The payloads
are those of the diagnostics (R98); `fetchPc` and `w` are transient values of the step (R43, R92). -/
inductive Cycle where
  | halted
  | pcOutOfRange (pc : Pc)
  | cellNotByte (pc : Pc)
  | invalidOpcode (op : Nib) (fetchPc : Pc) (w : InstrWord)
  | run (i : Instr)
  deriving DecidableEq, Repr

/-- The checks of a step in the order of R143; the first that applies decides. Step and diagnostic are both
read off this one answer (R102). -/
def cycleUnder (p : FetchCellPolicy) (s : State) : Cycle :=
  if s.halted then .halted
  else
    match fetchUnder p s with
    | .pcOutOfRange => .pcOutOfRange s.pc
    | .cellNotByte => .cellNotByte s.pc
    | .word w =>
      match decode w with
      | .instr i => .run i
      | .invalidOpcode f => .invalidOpcode f.op s.pc w

/-- A step in the Halted state changes nothing at all (R90, decision D8). -/
def haltedStep (s : State) : Host.Outcome State Fault Refusal := .next s

/-- A condition that halts the engine: ProgramCounterOutOfRange (R91) and FetchCellNotByte (R92). It saves
nothing and goes nowhere (60_exceptions.md R145): it sets `pc_fault` and leaves all else, the PC too
(decision D21). This is the core's only exception-like entry; there is no return from it (R146). -/
def haltOnFetchFailure (s : State) : Host.Outcome State Fault Refusal := .next s.setPcFault

/-- InvalidOpcode (R96), on the state after the PC advance: nothing else changes, and the run goes on. -/
def execInvalidOpcode (s : State) : Host.Outcome State Fault Refusal := .next s

/-- The word stored, high byte first (R54), in the two cells the next fetch reads; nothing where no fetch can
succeed (R91). -/
def State.placeWord (s : State) (w : InstrWord) : State :=
  if 255 ≤ s.pc then s
  else
    (s.memWrite (cellOfPc s.pc) (zextByte (highByte w))).memWrite (cellOfPc (s.pc + 1)) (zextByte (lowByte w))

end Sys2Proof.Machine
end

