-- ==== Sys2Proof/Machine/Arithmetic.lean ====
section
/-! DEFINITION. ADD (42_arithmetic.md R120, R121), the core's only arithmetic (R122). -/

namespace Sys2Proof.Machine

/-- ADD under either overflow policy (R121): both sources are read before the destination is written (R120). -/
def execAddUnder (p : AddOverflow) (r s t : Nib) (st : State) : Host.Outcome State Fault Refusal :=
  .next (st.setReg r (addUnder p (st.reg s) (st.reg t)))

/-- ADD (R120): `x[R] <- wrapN(x[S] + x[T])` under the policy the spec takes. -/
def execAdd (r s t : Nib) (st : State) : Host.Outcome State Fault Refusal :=
  execAddUnder Config.addOverflow r s t st

end Sys2Proof.Machine
end

