-- ==== Sys2Proof/Machine/Control.lean ====
section
/-! DEFINITION. JUMP and HALT (43_control.md R130, R131), on the state after the PC advance. -/

namespace Sys2Proof.Machine

/-- JUMP (R130): `pc <- pack8(S, T)`, over the advanced PC. R is ignored (30_encoding.md R75, decision D9). -/
def execJump (_r s t : Nib) (st : State) : Host.Outcome State Fault Refusal :=
  .next (st.setPc ((pack8 s t).setWidth 9))

/-- HALT (R131): `halt <- true`; the PC keeps its advance (decision D6). R, S and T are ignored (decision D9). -/
def execHalt (_r _s _t : Nib) (st : State) : Host.Outcome State Fault Refusal :=
  .next st.setHalt

end Sys2Proof.Machine
end

