-- ==== Sys2Proof/Machine/DataMovement.lean ====
section
/-! DEFINITION. LOAD1, LOAD2, STORE and MOVE (41_data_movement.md R110 to R113). Each runs on the state after
the PC advance (40_engine_cycle.md R93). -/

namespace Sys2Proof.Machine

/-- LOAD1 (R110): `x[R] <- MemRead(pack8(S, T))`. -/
def execLoad1 (r s t : Nib) (st : State) : Host.Outcome State Fault Refusal :=
  .next (st.setReg r (st.memRead (pack8 s t)))

/-- LOAD2 (R111): `x[R] <- zext_N(pack8(S, T))`. -/
def execLoad2 (r s t : Nib) (st : State) : Host.Outcome State Fault Refusal :=
  .next (st.setReg r (zextByte (pack8 s t)))

/-- STORE (R112): `MemWrite(pack8(S, T), x[R])`. -/
def execStore (r s t : Nib) (st : State) : Host.Outcome State Fault Refusal :=
  .next (st.memWrite (pack8 s t) (st.reg r))

/-- MOVE (R113): `x[R] <- x[S]`. T is ignored (30_encoding.md R75, decision D9). -/
def execMove (r s _t : Nib) (st : State) : Host.Outcome State Fault Refusal :=
  .next (st.setReg r (st.reg s))

end Sys2Proof.Machine
end

