-- ==== Sys2Proof/Machine/Dispatch.lean ====
section
/-! DEFINITION. Dispatch (40_engine_cycle.md R95): one arm per instruction of the opcode table. The "any other"
row of R95, the invalid opcodes, is no instruction and is handled by the step (R96). -/

namespace Sys2Proof.Machine

/-- The effect of an instruction on the state after the PC advance (R93). -/
def exec (i : Instr) (s : State) : Host.Outcome State Fault Refusal :=
  match i with
  | .load1 r a b => Sys2Proof.Machine.execLoad1 r a b s
  | .load2 r a b => Sys2Proof.Machine.execLoad2 r a b s
  | .store r a b => Sys2Proof.Machine.execStore r a b s
  | .move r a b => Sys2Proof.Machine.execMove r a b s
  | .add r a b => Sys2Proof.Machine.execAdd r a b s
  | .jump r a b => Sys2Proof.Machine.execJump r a b s
  | .halt r a b => Sys2Proof.Machine.execHalt r a b s

end Sys2Proof.Machine
end

