-- ==== Sys2Proof/Machine/Step.lean ====
section
/-! DEFINITION. One step of the engine (40_engine_cycle.md R97) and the placing of a word where it fetches. -/

namespace Sys2Proof.Machine

/-- `step()` (R97) under either fetch policy (R55): the checks of R143, then the instruction on the state
after the PC advance (R93). -/
def stepUnder (p : FetchCellPolicy) (s : State) : Host.Outcome State Fault Refusal :=
  match cycleUnder p s with
  | .halted => haltedStep s
  | .pcOutOfRange _ => haltOnFetchFailure s
  | .cellNotByte _ => haltOnFetchFailure s
  | .invalidOpcode _ _ _ => execInvalidOpcode s.advance
  | .run i => exec i s.advance

/-- `step()` (R97) under the policy the spec takes. -/
def step (s : State) : Host.Outcome State Fault Refusal := stepUnder Config.fetchCellPolicy s

/-- The state with a table word stored in the two cells that the next step fetches: what the load of R99 does
for a program whose first instruction it is (assumption 12). Nothing else changes. -/
def State.withFetchWord (s : State) (nbits w : Nat) : State := s.placeWord (tableWord nbits w)

end Sys2Proof.Machine
end

