-- ==== Sys2Proof/Machine/Assembly.lean ====
section
/-! DEFINITION. The assembler syntax of 30_encoding.md R80 (decision D16): syntax and no part of a step. The core
has no assembler and no pseudo-instructions (R81). -/

namespace Sys2Proof.Machine

/-- An instruction as written (R80). Operands are plain numbers: a register d of `Rd`, an address or an immediate. -/
inductive Asm where
  | load1 (d addr : Nat)  -- LOAD1 Rd, [addr]
  | load2 (d imm : Nat)   -- LOAD2 Rd, imm
  | store (s addr : Nat)  -- STORE Rs, [addr]
  | move (s d : Nat)      -- MOVE Rs -> Rd
  | add (a b d : Nat)     -- ADD Ra, Rb -> Rd
  | jump (addr : Nat)     -- JUMP addr
  | halt                  -- HALT
  deriving DecidableEq, Repr

/-- Registers are R0 to R15, addresses and immediates are in [0,255]: "a value outside that range cannot be
assembled" (R80). -/
def Asm.wellFormed : Asm → Bool
  | .load1 d a => decide (d < 16) && decide (a < 256)
  | .load2 d v => decide (d < 16) && decide (v < 256)
  | .store s a => decide (s < 16) && decide (a < 256)
  | .move s d => decide (s < 16) && decide (d < 16)
  | .add a b d => decide (a < 16) && decide (b < 16) && decide (d < 16)
  | .jump a => decide (a < 256)
  | .halt => true

/-- A number as a field of four bits. -/
def nib (n : Nat) : Nib := BitVec.ofNat 4 n

/-- The instruction that a line stands for, in canonical form: 0 in unused fields (R80). -/
def Asm.instr : Asm → Instr
  | .load1 d a => .load1 (nib d) (nib (a / 16)) (nib a)
  | .load2 d v => .load2 (nib d) (nib (v / 16)) (nib v)
  | .store s a => .store (nib s) (nib (a / 16)) (nib a)
  | .move s d => .move (nib d) (nib s) 0
  | .add a b d => .add (nib d) (nib a) (nib b)
  | .jump a => .jump 0 (nib (a / 16)) (nib a)
  | .halt => .halt 0 0 0

/-- The word of a line (R80); none where an operand is out of range. -/
def Asm.assemble (i : Asm) : Option InstrWord := if i.wellFormed then some (encode i.instr) else none

/-- A line of assembly source: an instruction or one of the two directives that place data (R80). -/
inductive Line where
  | instr (i : Asm)
  | org (addr : Nat)
  | byte (b : Nat)
  deriving DecidableEq, Repr

/-- The cells that a source fills, from a first cell on: `.org` sets the next cell to fill, `.byte` fills one
cell, an instruction fills two, high byte first (R80, R54). None where a value cannot be assembled or a
cell does not exist. -/
def layout : Nat → List Line → Option (List (Nat × Byte))
  | _, [] => some []
  | _, .org a :: ls => if a < 256 then layout a ls else none
  | c, .byte b :: ls =>
    if b < 256 ∧ c < 256 then (layout (c + 1) ls).map fun r => (c, BitVec.ofNat 8 b) :: r else none
  | c, .instr i :: ls =>
    match i.assemble with
    | none => none
    | some w =>
      if c + 1 < 256 then (layout (c + 2) ls).map fun r => (c, highByte w) :: (c + 1, lowByte w) :: r else none

/-- A word as disassembled: an instruction, or `.word 0xhhhh` where its opcode is invalid (R80). -/
inductive Listing where
  | instr (i : Asm)
  | word (w : InstrWord)
  deriving DecidableEq, Repr

/-- An instruction as written; a field it ignores does not show. -/
def asmOfInstr : Instr → Asm
  | .load1 r s t => .load1 r.toNat (pack8 s t).toNat
  | .load2 r s t => .load2 r.toNat (pack8 s t).toNat
  | .store r s t => .store r.toNat (pack8 s t).toNat
  | .move r s _ => .move s.toNat r.toNat
  | .add r s t => .add s.toNat t.toNat r.toNat
  | .jump _ s t => .jump (pack8 s t).toNat
  | .halt _ _ _ => .halt

/-- Disassembly of a word (R80). -/
def disassemble (w : InstrWord) : Listing :=
  match decode w with
  | .instr i => .instr (asmOfInstr i)
  | .invalidOpcode _ => .word w

/-- One hexadecimal digit, in capitals. -/
def hexDigit (n : Nib) : String :=
  match n.toNat with
  | 10 => "A"
  | 11 => "B"
  | 12 => "C"
  | 13 => "D"
  | 14 => "E"
  | 15 => "F"
  | k => toString k

/-- A number in [0,255] as `0x` and two hexadecimal digits (R80). -/
def hexByte (n : Nat) : String := "0x" ++ hexDigit (nib (n / 16)) ++ hexDigit (nib n)

/-- A register as written, R0 to R15 (00_scope.md R26). -/
def registerName (n : Nat) : String := "R" ++ toString n

/-- The text of an instruction (R80). -/
def Asm.text : Asm → String
  | .load1 d a => "LOAD1 " ++ registerName d ++ ", [" ++ hexByte a ++ "]"
  | .load2 d v => "LOAD2 " ++ registerName d ++ ", " ++ hexByte v
  | .store s a => "STORE " ++ registerName s ++ ", [" ++ hexByte a ++ "]"
  | .move s d => "MOVE " ++ registerName s ++ " -> " ++ registerName d
  | .add a b d => "ADD " ++ registerName a ++ ", " ++ registerName b ++ " -> " ++ registerName d
  | .jump a => "JUMP " ++ hexByte a
  | .halt => "HALT"

/-- The text of a disassembled word (R80). -/
def Listing.text : Listing → String
  | .instr i => i.text
  | .word w =>
    ".word 0x" ++ hexDigit (w.extractLsb' 12 4) ++ hexDigit (w.extractLsb' 8 4) ++ hexDigit (w.extractLsb' 4 4)
      ++ hexDigit (w.extractLsb' 0 4)

end Sys2Proof.Machine
end

