-- ==== Sys2Proof/Machine/Diagnostics.lean ====
section
/-! DEFINITION. The diagnostic output (40_engine_cycle.md R98). A diagnostic is an output and not state: like the
next state it is a function of the state alone (R102; assumption 11). -/

namespace Sys2Proof.Machine

/-- A diagnostic record (R98, decision D11). Its text is not specified and not modelled. -/
inductive Diagnostic where
  /-- Code 0: nothing reported. -/
  | nothing
  /-- Code 1 (R96): opcode, fetch address, instruction word. -/
  | invalidOpcode (op : Nib) (fetchPc : Pc) (w : InstrWord)
  /-- Code 2 (R91): the PC. -/
  | programCounterOutOfRange (pc : Pc)
  /-- Code 3 (R92): the PC, only under the `fault` policy. -/
  | fetchCellNotByte (pc : Pc)
  /-- Code 4: from a direct interface access only; no step reports it (60_exceptions.md R141). -/
  | addressOutOfRange (space : Space) (address : Int)
  deriving DecidableEq, Repr

/-- The numeric code (R98). -/
def Diagnostic.code : Diagnostic → Nat
  | .nothing => 0
  | .invalidOpcode _ _ _ => 1
  | .programCounterOutOfRange _ => 2
  | .fetchCellNotByte _ => 3
  | .addressOutOfRange _ _ => 4

/-- The diagnostic an interface failure reports (R98, code 4). -/
def Fault.diagnostic : Fault → Diagnostic
  | .addressOutOfRange sp a => .addressOutOfRange sp a

/-- The diagnostic of the step from a state, under either fetch policy: at most one (R98, R143). -/
def diagnosticUnder (p : FetchCellPolicy) (s : State) : Diagnostic :=
  match cycleUnder p s with
  | .halted => .nothing
  | .pcOutOfRange pc => .programCounterOutOfRange pc
  | .cellNotByte pc => .fetchCellNotByte pc
  | .invalidOpcode op fetchPc w => .invalidOpcode op fetchPc w
  | .run _ => .nothing

/-- The diagnostic of the step from a state, under the policy the spec takes. -/
def diagnostic (s : State) : Diagnostic := diagnosticUnder Config.fetchCellPolicy s

end Sys2Proof.Machine
end

