-- ==== Sys2Proof/Machine/HostInterface.lean ====
section
/-! DEFINITION. The host's operations on the core (40_engine_cycle.md R99 to R103) and the checked accessors of
the register file and the memory array (10_state.md R31, R32; 20_memory.md R51). -/

namespace Sys2Proof.Machine

/-- `read(address)` of the register file: AddressOutOfRange outside [0,16), never wrapped or clamped (R32). -/
def readRegister (s : State) (a : Int) : Except Fault Word :=
  if 0 ≤ a ∧ a < 16 then .ok (s.reg (BitVec.ofInt 4 a)) else .error (.addressOutOfRange .register a)

/-- `write(address, value)` of the register file (R31, R32). -/
def writeRegister (s : State) (a : Int) (v : Word) : Except Fault State :=
  if 0 ≤ a ∧ a < 16 then .ok (s.setReg (BitVec.ofInt 4 a) v) else .error (.addressOutOfRange .register a)

/-- `read(address)` of the memory array: AddressOutOfRange outside [0,256) (R51). -/
def readMemory (s : State) (a : Int) : Except Fault Word :=
  if 0 ≤ a ∧ a < 256 then .ok (s.memRead (BitVec.ofInt 8 a)) else .error (.addressOutOfRange .memory a)

/-- `write(address, value)` of the memory array (R51). -/
def writeMemory (s : State) (a : Int) (v : Word) : Except Fault State :=
  if 0 ≤ a ∧ a < 256 then .ok (s.memWrite (BitVec.ofInt 8 a) v) else .error (.addressOutOfRange .memory a)

/-- Construction, the only reset (R103; 70_reset_and_hazards.md R160, R161). -/
def construct : State := State.reset

/-- The bytes of a load written to cells a, a+1, …, stopping at 256 cells or the end of input (R99). -/
def loadFrom : Nat → List Byte → Memory → Memory
  | _, [], m => m
  | a, b :: bs, m => if a < 256 then loadFrom (a + 1) bs (m.write a (zextByte b)) else m

/-- Load, a byte at a time (R99): cell a receives the a-th byte, and the count is that of the cells written. -/
def loadBytes (bs : List Byte) (s : State) : State × Nat :=
  ({ s with mem := loadFrom 0 bs s.mem }, min bs.length 256)

/-- Each word "split into two byte cells", high byte first (R99, R54). -/
def bytesOfWords : List InstrWord → List Byte
  | [] => []
  | w :: ws => highByte w :: lowByte w :: bytesOfWords ws

/-- `load(words: sequence of uint16) -> count loaded` (R99; 90_conflicts.md C7). -/
def loadWords (ws : List InstrWord) (s : State) : State × Nat := loadBytes (bytesOfWords ws) s

/-- A machine ready for its first step: construct, then load (R160, R163). -/
def boot (bs : List Byte) : State := (loadBytes bs construct).1

/-- `isHalted()` (R101). -/
def isHalted (s : State) : Bool := s.halted

/-- `run()` (R101): step while not Halted. A run need not end (70_reset_and_hazards.md R167), so it runs under
fuel: `none` says that it has not ended within so many steps. -/
def run : Nat → State → Option State
  | 0, s => if s.halted then some s else none
  | n + 1, s =>
    if s.halted then some s
    else
      match step s with
      | .next t => run n t
      | .fault _ => none
      | .refused _ => none

/-- The diagnostics of the steps `run` makes, in order, without the steps that report nothing. -/
def runDiagnostics : Nat → State → List Diagnostic
  | 0, _ => []
  | n + 1, s =>
    if s.halted then []
    else
      match step s with
      | .next t => if diagnostic s = .nothing then runDiagnostics n t else diagnostic s :: runDiagnostics n t
      | .fault _ => []
      | .refused _ => []

/-- What the observation port shows (R100, decision D18). -/
structure Observation where
  regs : Vector Word 16
  cells : Vector Word 16
  deriving DecidableEq, Repr

/-- The observation port: all registers and cells 0 to 15; a pure read (R100). -/
def observe (s : State) : Observation where
  regs := s.regs
  cells := Vector.ofFn fun i : Fin 16 => s.memRead (BitVec.ofNat 8 i)

end Sys2Proof.Machine
end

