-- ==== Sys2Proof/Machine/Ports.lean ====
section
/-! DEFINITION. The signal level of 92_eei_decisions.md decision D13: the port list of the core and one rising
edge of `clk`. The transaction-level rules stay normative; this file says how the ports carry them
(40_engine_cycle.md R103; 70_reset_and_hazards.md R166). -/

namespace Sys2Proof.Machine

/-- The inputs that a rising edge of `clk` reads. -/
structure PortsIn where
  rst : Bool
  ldEn : Bool
  ldAddr : Byte
  ldData : Byte
  stepEn : Bool
  deriving DecidableEq, Repr

/-- The block: the core's architectural state (10_state.md R30), whether the first step has been made (decision
D12), and the diagnostic of the last step, which the `diag` outputs hold. The last two are no state of
the core: no step reads them. -/
structure Block where
  core : State
  started : Bool
  lastDiag : Diagnostic
  deriving DecidableEq, Repr

/-- The block after `rst`: construction (R160 phase 1), no step made, nothing reported. -/
def Block.reset : Block where
  core := construct
  started := false
  lastDiag := .nothing

/-- `ld_en` counts: "while Running and before the first step" (D13; 40_engine_cycle.md R103). -/
def loadEnabled (i : PortsIn) (b : Block) : Bool := i.ldEn && !b.started && !b.core.halted

/-- The write of `ld_data` to cell `ld_addr`, where the load counts. Otherwise nothing: the host has no operation
that writes memory after the first step (R103, decision D12). -/
def portLoad (i : PortsIn) (b : Block) : Block :=
  if loadEnabled i b then { b with core := b.core.memWrite i.ldAddr (zextByte i.ldData) } else b

/-- `step_en`: one step of R97, its diagnostic shown from then on. A step always has a next state; the other
outcomes are kept only so that the function is total. -/
def portStep (i : PortsIn) (b : Block) : Block :=
  if i.stepEn then
    match step b.core with
    | .next t => { core := t, started := true, lastDiag := diagnostic b.core }
    | .fault _ => b
    | .refused _ => b
  else b

/-- One rising edge of `clk`. Two points here are the MODEL'S OWN choice, which D13 does not state (DESIGN CHOICE,
assumption 15). `rst` decides the edge alone, whatever the other inputs are. With `ld_en` and `step_en` both
asserted before the first step, the two are taken one after the other, in the order of the free value
`Config.loadBeforeStep`. Load first: the cell is written and the step sees it. Step first: the first step has been
made, so the load no longer counts and is lost, since nothing writes memory after the first step (R103). Either
way no load lands after a step. Excluded by this choice: a step that is lost, and a load that lands while the
step reads memory as it was before the edge. -/
def edge (i : PortsIn) (b : Block) : Block :=
  if i.rst then Block.reset
  else if Config.loadBeforeStep then portStep i (portLoad i b)
  else portLoad i (portStep i b)

/-- Rising edges, one after the other. -/
def edges : List PortsIn → Block → Block
  | [], b => b
  | i :: is, b => edges is (edge i b)

/-- The edges by which the host loads bytes: it "drives addresses 0, 1, 2, … in order", here from `a` on. -/
def loadDrive : Nat → List Byte → List PortsIn
  | _, [] => []
  | a, b :: bs =>
    { rst := false, ldEn := true, ldAddr := BitVec.ofNat 8 a, ldData := b, stepEn := false } :: loadDrive (a + 1) bs

/-- Output `halted`. -/
def portHalted (b : Block) : Bool := b.core.halted

/-- Output `halt_cause[1:0]`: 0 Running, 1 HALT, 2 PC_OUT_OF_RANGE. -/
def portHaltCause (b : Block) : BitVec 2 :=
  match b.core.haltCause with
  | .running => 0
  | .halt => 1
  | .pcOutOfRange => 2

/-- Output `diag_valid`: the last step reported something. -/
def portDiagValid (b : Block) : Bool := b.lastDiag.code != 0

/-- Output `diag_kind[2:0]` (R98). -/
def portDiagKind (b : Block) : BitVec 3 := BitVec.ofNat 3 b.lastDiag.code

/-- Output `diag_pc[8:0]`; none for a kind whose payload has no PC, for which the spec gives the port no value. -/
def portDiagPc (b : Block) : Option Pc :=
  match b.lastDiag with
  | .invalidOpcode _ fetchPc _ => some fetchPc
  | .programCounterOutOfRange pc => some pc
  | .fetchCellNotByte pc => some pc
  | .nothing => none
  | .addressOutOfRange _ _ => none

/-- Output `diag_op[3:0]`; none for a kind whose payload has no opcode. -/
def portDiagOp (b : Block) : Option Nib :=
  match b.lastDiag with
  | .invalidOpcode op _ _ => some op
  | .programCounterOutOfRange _ => none
  | .fetchCellNotByte _ => none
  | .nothing => none
  | .addressOutOfRange _ _ => none

/-- Output `diag_word[15:0]`; none for a kind whose payload has no instruction word. -/
def portDiagWord (b : Block) : Option InstrWord :=
  match b.lastDiag with
  | .invalidOpcode _ _ w => some w
  | .programCounterOutOfRange _ => none
  | .fetchCellNotByte _ => none
  | .nothing => none
  | .addressOutOfRange _ _ => none

/-- Output `obs_reg_data[N-1:0]` for the input `obs_reg_idx[3:0]`: combinational, a pure read (R100). -/
def portObsReg (idx : Nib) (b : Block) : Word := b.core.reg idx

/-- Output `obs_mem_data[N-1:0]` for the input `obs_mem_idx[3:0]`: a pure read of cells 0 to 15 (R100). -/
def portObsMem (idx : Nib) (b : Block) : Word := b.core.memRead (idx.setWidth 8)

end Sys2Proof.Machine
end

