-- ==== Sys2Proof/Safety.lean ====
section
/-! DEFINITION. What counts as a good state, what an instruction may read and write, and how a run ends. -/

namespace Sys2Proof.Machine

/-- The invariant of the machine: the PC is in [0,256] (10_state.md R35), the two flags are never both true
(R38), and the memory is in canonical form. -/
abbrev State.Inv (s : State) : Prop := s.pc ≤ 256 ∧ ¬(s.halt = true ∧ s.pcFault = true) ∧ s.mem.wf = true

/-- The registers an instruction reads (10_state.md R33). -/
def readsOf : Instr → List Nib
  | .load1 _ _ _ => []
  | .load2 _ _ _ => []
  | .store r _ _ => [r]
  | .move _ s _ => [s]
  | .add _ s t => [s, t]
  | .jump _ _ _ => []
  | .halt _ _ _ => []

/-- The registers an instruction writes (R33). -/
def writesOf : Instr → List Nib
  | .load1 r _ _ => [r]
  | .load2 r _ _ => [r]
  | .store _ _ _ => []
  | .move r _ _ => [r]
  | .add r _ _ => [r]
  | .jump _ _ _ => []
  | .halt _ _ _ => []

/-- The memory cell an instruction stores to: the address `execStore` computes (R112), and none for the rest. -/
def storesTo : Instr → Option Byte
  | .load1 _ _ _ => none
  | .load2 _ _ _ => none
  | .store _ s t => some (pack8 s t)
  | .move _ _ _ => none
  | .add _ _ _ => none
  | .jump _ _ _ => none
  | .halt _ _ _ => none

/-- The instruction is a HALT. -/
def isHalt : Instr → Bool
  | .load1 _ _ _ => false
  | .load2 _ _ _ => false
  | .store _ _ _ => false
  | .move _ _ _ => false
  | .add _ _ _ => false
  | .jump _ _ _ => false
  | .halt _ _ _ => true

/-- The step from this state ends the run by HALT (70_reset_and_hazards.md R167). -/
def endsByHalt (p : FetchCellPolicy) (s : State) : Prop := ∃ i, cycleUnder p s = .run i ∧ isHalt i = true

/-- The step from this state ends the run at its fetch: the PC is out of range, or under the `fault` policy a
fetched cell is no byte (R167). -/
def endsByFetch (p : FetchCellPolicy) (s : State) : Prop :=
  cycleUnder p s = .pcOutOfRange s.pc ∨ cycleUnder p s = .cellNotByte s.pc

end Sys2Proof.Machine
end

