-- ==== Sys2Proof/Certificates/Slice0/Obligations.lean ====
section
/-! DEFINITION. The statements about the core, for the provers. Each docstring names the rule of spec/ it
formalises, or the decision of the spec and the assumption-log entry it rests on. -/

open Sys2Proof Sys2Proof.Machine

/-! ### Encoding -/

/-- 95_test_vectors.md section 2.1: the listed words decode to the instructions they stand for. Fixed words. -/
def Obligations.ListedWordsDecodeAsListed : Prop :=
  decode 0x1440 = .instr (.load1 4 4 0) ∧ decode 0x2005 = .instr (.load2 0 0 5) ∧
  decode 0x3340 = .instr (.store 3 4 0) ∧ decode 0x4540 = .instr (.move 5 4 0) ∧
  decode 0x5201 = .instr (.add 2 0 1) ∧ decode 0xB020 = .instr (.jump 0 2 0) ∧
  decode 0xC000 = .instr (.halt 0 0 0) ∧ decode 0x0000 = .invalidOpcode ⟨0, 0, 0, 0⟩ ∧
  decode 0xFFFF = .invalidOpcode ⟨15, 15, 15, 15⟩

/-- 00_scope.md R25. -/
def Obligations.Pack8IsShiftedHighNibbleOrLowNibble : Prop :=
  ∀ s t : Nib, (pack8 s t).toNat = (s.toNat <<< 4 ||| t.toNat) ∧ (pack8 s t).toNat ≤ 255

/-- 30_encoding.md R70 and R76: the four fields of every word, as numbers. -/
def Obligations.EveryWordSplitsIntoFourNibbles : Prop :=
  ∀ w : InstrWord,
    (decodeFields w).op.toNat = w.toNat / 4096 ∧ (decodeFields w).r.toNat = w.toNat / 256 % 16 ∧
    (decodeFields w).s.toNat = w.toNat / 16 % 16 ∧ (decodeFields w).t.toNat = w.toNat % 16

/-- 30_encoding.md R73: the opcode map by match and mask. Every word of a defined opcode is that instruction with
the word's own fields, and every other word is invalid. -/
def Obligations.OpcodeAloneSelectsTheInstruction : Prop :=
  ∀ w : InstrWord,
    decode w =
      (let f := decodeFields w
       if w &&& 0xF000 = 0x1000 then .instr (.load1 f.r f.s f.t)
       else if w &&& 0xF000 = 0x2000 then .instr (.load2 f.r f.s f.t)
       else if w &&& 0xF000 = 0x3000 then .instr (.store f.r f.s f.t)
       else if w &&& 0xF000 = 0x4000 then .instr (.move f.r f.s f.t)
       else if w &&& 0xF000 = 0x5000 then .instr (.add f.r f.s f.t)
       else if w &&& 0xF000 = 0xB000 then .instr (.jump f.r f.s f.t)
       else if w &&& 0xF000 = 0xC000 then .instr (.halt f.r f.s f.t)
       else .invalidOpcode f)

/-- 30_encoding.md section 6 (derived there): decoding the word of a well-formed instruction gives it back, with
every operand at every value. -/
def Obligations.DecodeOfEncodeIsTheInstruction : Prop :=
  ∀ i : Instr, i.wellFormed = true → decode (encode i) = .instr i

/-- 30_encoding.md section 6 (derived there): `encode_word` and decode are inverse on all fields and all words. -/
def Obligations.EncodeWordAndDecodeAreInverse : Prop :=
  (∀ op r s t : Nib, decodeFields (encodeWord op r s t) = ⟨op, r, s, t⟩) ∧
  (∀ w : InstrWord,
    encodeWord (decodeFields w).op (decodeFields w).r (decodeFields w).s (decodeFields w).t = w) ∧
  (∀ (w : InstrWord) (i : Instr), decode w = .instr i → encode i = w)

/-- 30_encoding.md R78: an instruction is read from exactly two bytes, whatever follows them. -/
def Obligations.EveryInstructionTakesTwoCells : Prop :=
  ∀ (bs rest : List Byte) (i : Instr),
    decodeBytes bs = .ok (i, rest) ↔
      ∃ hi lo, bs = hi :: lo :: rest ∧ decode (wordOfBytes hi lo) = .instr i

/-- 30_encoding.md section 3, decision D9 (assumption 9), the spec's own choice: the value of a field an instruction
does not use changes nothing. -/
def Obligations.UnusedFieldsChangeNothing : Prop :=
  ∀ (r s t r' s' t' : Nib) (st : State),
    exec (.move r s t) st = exec (.move r s t') st ∧ exec (.jump r s t) st = exec (.jump r' s t) st ∧
    exec (.halt r s t) st = exec (.halt r' s' t') st

/-- Decision D16 (assumption 16), the spec's own choice: a line of assembly assembles exactly where its operands
are in range, to a canonical word that disassembles to the same line. -/
def Obligations.AssemblyRoundTrips : Prop :=
  ∀ i : Asm,
    (i.wellFormed = false → i.assemble = none) ∧
    (i.wellFormed = true → ∃ w, i.assemble = some w ∧ disassemble w = .instr i ∧
      ∃ j : Instr, decode w = .instr j ∧ j.canonical = true)

/-! ### Reset and load -/

/-- 10_state.md section 7. Rests on decisions D1, D4 and D7 (assumptions 1, 4 and 7), the spec's own choices. -/
def Obligations.ResetValuesOfEveryElement : Prop :=
  (∀ i : Nib, State.reset.reg i = 0) ∧ (∀ a : Byte, State.reset.memRead a = 0) ∧ State.reset.pc = 0x0A ∧
  State.reset.halt = false ∧ State.reset.pcFault = false ∧ State.reset.haltCause = .running

/-- The invariant of `StepKeepsInvariant` holds at reset. Its clause on the memory's canonical form is about the
model's own representation (assumption 14). -/
def Obligations.ResetMeetsInvariant : Prop := State.reset.Inv

/-- 40_engine_cycle.md section 3, Load. The canonical form of the memory, as premise and as conclusion, is the model's
own representation (assumption 14). -/
def Obligations.LoadWritesTheBytesInOrder : Prop :=
  ∀ (bs : List Byte) (s : State), s.mem.wf = true →
    (loadBytes bs s).2 = min bs.length 256 ∧ (loadBytes bs s).1.regs = s.regs ∧ (loadBytes bs s).1.pc = s.pc ∧
    (loadBytes bs s).1.halt = s.halt ∧ (loadBytes bs s).1.pcFault = s.pcFault ∧
    (loadBytes bs s).1.mem.wf = true ∧
    ∀ a : Byte,
      (loadBytes bs s).1.memRead a = if h : a.toNat < bs.length then zextByte bs[a.toNat] else s.memRead a

/-- 40_engine_cycle.md section 3, Load, with words (90_conflicts.md C7): word k goes to cells 2k and 2k+1, high
byte first, and the count is in cells. -/
def Obligations.LoadSplitsWordsHighByteFirst : Prop :=
  ∀ (ws : List InstrWord) (s : State), s.mem.wf = true →
    (loadWords ws s).2 = min (2 * ws.length) 256 ∧
    ∀ (k : Nat) (h : k < ws.length), k < 128 →
      ((loadWords ws s).1.memRead (BitVec.ofNat 8 (2 * k))).toNat = ws[k].toNat / 256 ∧
      ((loadWords ws s).1.memRead (BitVec.ofNat 8 (2 * k + 1))).toNat = ws[k].toNat % 256

/-- 70_reset_and_hazards.md R162: after construct and the load of an image that reaches the entry point, the first
step fetches cells 0x0A and 0x0B, under either fetch policy. -/
def Obligations.FirstStepFetchesTheEntryPoint : Prop :=
  ∀ (p : FetchCellPolicy) (bs : List Byte) (h : 12 ≤ bs.length),
    (boot bs).pc = 0x0A ∧ (boot bs).halted = false ∧
    (boot bs).memRead 0x0A = zextByte bs[10] ∧ (boot bs).memRead 0x0B = zextByte bs[11] ∧
    fetchUnder p (boot bs) = .word (wordOfBytes bs[10] bs[11])

/-! ### The engine cycle -/

/-- 20_memory.md R54, under either fetch policy and at odd and even addresses: from two cells that hold bytes, the
word is the high byte from cell pc and the low byte from cell pc+1. -/
def Obligations.FetchTakesTheHighByteFirst : Prop :=
  ∀ (p : FetchCellPolicy) (s : State), s.pc.toNat ≤ 254 →
    let hi := s.memRead (BitVec.ofNat 8 s.pc.toNat)
    let lo := s.memRead (BitVec.ofNat 8 (s.pc.toNat + 1))
    0 ≤ hi.toInt → hi.toInt ≤ 255 → 0 ≤ lo.toInt → lo.toInt ≤ 255 →
    ∃ w, fetchUnder p s = .word w ∧ (w.toNat : Int) = 256 * hi.toInt + lo.toInt

/-- Decision D3 (assumption 3), the spec's own choice: fetch takes bits [7:0] of each cell, whatever Word it
holds. -/
def Obligations.FetchTruncatesEachCell : Prop :=
  ∀ s : State, s.pc.toNat ≤ 254 →
    ∃ w, fetchUnder .truncate8 s = .word w ∧
      w.toNat = 256 * ((s.memRead (BitVec.ofNat 8 s.pc.toNat)).toNat % 256) +
        (s.memRead (BitVec.ofNat 8 (s.pc.toNat + 1))).toNat % 256

/-- Decision D3, its alternative policy (assumption 3): a fetch of a cell outside [0,255] reports FetchCellNotByte,
sets `pc_fault` and changes nothing else. -/
def Obligations.FaultPolicyHaltsOnACellThatIsNoByte : Prop :=
  ∀ s : State, s.halted = false → s.pc.toNat ≤ 254 →
    (∃ c, (c = s.memRead (BitVec.ofNat 8 s.pc.toNat) ∨ c = s.memRead (BitVec.ofNat 8 (s.pc.toNat + 1))) ∧
      (c.toInt < 0 ∨ 255 < c.toInt)) →
    stepUnder .fault s = .next { s with pcFault := true } ∧
    diagnosticUnder .fault s = .fetchCellNotByte s.pc

/-- 40_engine_cycle.md section 1, the PC range check. Rests on decisions D7 and D21 (assumptions 7 and 13), the
spec's own choices. -/
def Obligations.PcRangeFailureHaltsAndChangesNothingElse : Prop :=
  ∀ (p : FetchCellPolicy) (s : State), s.halted = false → 255 ≤ s.pc.toNat →
    stepUnder p s = .next { s with pcFault := true } ∧
    ({ s with pcFault := true } : State).haltCause = .pcOutOfRange ∧
    diagnosticUnder p s = .programCounterOutOfRange s.pc

/-- 40_engine_cycle.md section 1, the halted check. Rests on decision D8 (assumption 8), the spec's own choice: any
number of steps of a Halted engine changes nothing and reports nothing. -/
def Obligations.HaltedEngineNeverChanges : Prop :=
  ∀ s : State, s.halted = true →
    (∀ p, stepUnder p s = .next s ∧ diagnosticUnder p s = .nothing) ∧
    ∀ k : Nat, Host.Core.run core k s = .next s

/-- 40_engine_cycle.md R96. -/
def Obligations.InvalidOpcodeIsReportedAndPassedOver : Prop :=
  ∀ (p : FetchCellPolicy) (s : State) (w : InstrWord), s.halted = false → fetchUnder p s = .word w →
    w.toNat / 4096 ∈ [0x0, 0x6, 0x7, 0x8, 0x9, 0xA, 0xD, 0xE, 0xF] →
    ∃ t, stepUnder p s = .next t ∧ t.pc.toNat = s.pc.toNat + 2 ∧ (∀ i, t.reg i = s.reg i) ∧
      (∀ a, t.memRead a = s.memRead a) ∧ t.halt = s.halt ∧ t.pcFault = s.pcFault ∧
      diagnosticUnder p s = .invalidOpcode (BitVec.ofNat 4 (w.toNat / 4096)) s.pc w

/-- A step runs the decoded instruction: where the engine is Running, the PC is in range and the two cells at it
decode to a well-formed instruction, the step is `exec` of it on the state with the PC advanced by 2, and
nothing is reported. Rests on decisions D3 and D6 (assumptions 3 and 6), the spec's own choices. -/
def Obligations.StepRunsTheDecodedInstruction : Prop :=
  ∀ (s : State) (i : Instr), s.halted = false → s.pc.toNat ≤ 254 → i.wellFormed = true →
    decode (wordOfBytes (cellByte (s.memRead (BitVec.ofNat 8 s.pc.toNat)))
      (cellByte (s.memRead (BitVec.ofNat 8 (s.pc.toNat + 1))))) = .instr i →
    step s = exec i { s with pc := s.pc + 2 } ∧ (s.pc + 2).toNat = s.pc.toNat + 2 ∧ diagnostic s = .nothing

/-- 60_exceptions.md section 2 (derived there): which diagnostic a step reports, in the order of the checks. That a
Halted step reports nothing rests on decision D8 (assumption 8), the rest on decisions D3, D7 and D11
(assumptions 3, 7 and 11), the spec's own choices. -/
def Obligations.DiagnosticFollowsThePriority : Prop :=
  ∀ (p : FetchCellPolicy) (s : State),
    let hi := s.memRead (BitVec.ofNat 8 s.pc.toNat)
    let lo := s.memRead (BitVec.ofNat 8 (s.pc.toNat + 1))
    let w := wordOfBytes (cellByte hi) (cellByte lo)
    diagnosticUnder p s =
      if s.halt = true ∨ s.pcFault = true then .nothing
      else if 255 ≤ s.pc.toNat then .programCounterOutOfRange s.pc
      else if p = .fault ∧ ¬(0 ≤ hi.toInt ∧ hi.toInt ≤ 255 ∧ 0 ≤ lo.toInt ∧ lo.toInt ≤ 255) then .fetchCellNotByte s.pc
      else if w.toNat / 4096 ∈ [0x0, 0x6, 0x7, 0x8, 0x9, 0xA, 0xD, 0xE, 0xF] then
        .invalidOpcode (BitVec.ofNat 4 (w.toNat / 4096)) s.pc w
      else .nothing

/-- 60_exceptions.md section 1 (derived there): a step that reports a condition changes `pc_fault` alone or makes
the PC advance alone. That the first kind sets `pc_fault` and leaves the PC rests on decisions D7 and D21
(assumptions 7 and 13), the spec's own choices. -/
def Obligations.EveryConditionIsPrecise : Prop :=
  ∀ (p : FetchCellPolicy) (s : State), diagnosticUnder p s ≠ .nothing →
    stepUnder p s = .next { s with pcFault := true } ∨ stepUnder p s = .next { s with pc := s.pc + 2 }

/-- 60_exceptions.md section 1 (derived there): every step of every state has a next state, and none reports an
AddressOutOfRange of an instruction. -/
def Obligations.EveryStepCompletesWithoutAddressFailure : Prop :=
  ∀ (p : FetchCellPolicy) (s : State),
    (∃ t, stepUnder p s = .next t) ∧ ∀ sp a, diagnosticUnder p s ≠ .addressOutOfRange sp a

/-! ### The instructions: each completes, with its result and its frame -/

/-- 41_data_movement.md R110. -/
def Obligations.Load1LoadsTheCell : Prop :=
  ∀ (r s t : Nib) (st : State),
    decode (encodeWord 0x1 r s t) = .instr (.load1 r s t) ∧
    ∃ u, exec (.load1 r s t) st = .next u ∧ u.reg r = st.memRead (pack8 s t) ∧
      (∀ q, q ≠ r → u.reg q = st.reg q) ∧ (∀ a, u.memRead a = st.memRead a) ∧ u.pc = st.pc ∧
      u.halt = st.halt ∧ u.pcFault = st.pcFault

/-- 41_data_movement.md R111: the immediate is zero-extended, so the register is in [0,255]. -/
def Obligations.Load2LoadsTheImmediate : Prop :=
  ∀ (r s t : Nib) (st : State),
    decode (encodeWord 0x2 r s t) = .instr (.load2 r s t) ∧
    ∃ u, exec (.load2 r s t) st = .next u ∧ (u.reg r).toInt = 16 * (s.toNat : Int) + (t.toNat : Int) ∧
      (∀ q, q ≠ r → u.reg q = st.reg q) ∧ (∀ a, u.memRead a = st.memRead a) ∧ u.pc = st.pc ∧
      u.halt = st.halt ∧ u.pcFault = st.pcFault

/-- 41_data_movement.md R112: the whole Word of the register is stored, at the address `execStore` computes, and
no other cell changes. The memory's canonical form is the model's invariant (`StepKeepsInvariant`). -/
def Obligations.StoreWritesTheCell : Prop :=
  ∀ (r s t : Nib) (st : State), st.mem.wf = true →
    decode (encodeWord 0x3 r s t) = .instr (.store r s t) ∧
    ∃ u, exec (.store r s t) st = .next u ∧ u.memRead (pack8 s t) = st.reg r ∧
      (∀ a, a ≠ pack8 s t → u.memRead a = st.memRead a) ∧ (∀ q, u.reg q = st.reg q) ∧ u.pc = st.pc ∧
      u.halt = st.halt ∧ u.pcFault = st.pcFault

/-- 41_data_movement.md, MOVE. That T is ignored rests on decision D9 (assumption 9), the spec's own choice. -/
def Obligations.MoveCopiesTheRegister : Prop :=
  ∀ (r s t : Nib) (st : State),
    decode (encodeWord 0x4 r s t) = .instr (.move r s t) ∧
    ∃ u, exec (.move r s t) st = .next u ∧ u.reg r = st.reg s ∧
      (∀ q, q ≠ r → u.reg q = st.reg q) ∧ (∀ a, u.memRead a = st.memRead a) ∧ u.pc = st.pc ∧
      u.halt = st.halt ∧ u.pcFault = st.pcFault

/-- 41_data_movement.md, MOVE: with R = S the whole state stays. That it does for every T rests on decision D9
(assumption 9), the spec's own choice. -/
def Obligations.MoveToItselfChangesNothing : Prop :=
  ∀ (r t : Nib) (st : State), exec (.move r r t) st = .next st

/-- 42_arithmetic.md, ADD: the result is the Word congruent to the sum modulo 2^N, N = 32. Rests on decisions D1
and D2 (assumptions 1 and 2), the spec's own choices. Every aliasing of R, S and T is covered. -/
def Obligations.AddWrapsTheSum : Prop :=
  ∀ (r s t : Nib) (st : State),
    decode (encodeWord 0x5 r s t) = .instr (.add r s t) ∧
    ∃ u, exec (.add r s t) st = .next u ∧
      ((u.reg r).toInt - ((st.reg s).toInt + (st.reg t).toInt)) % 2 ^ 32 = 0 ∧
      (∀ q, q ≠ r → u.reg q = st.reg q) ∧ (∀ a, u.memRead a = st.memRead a) ∧ u.pc = st.pc ∧
      u.halt = st.halt ∧ u.pcFault = st.pcFault

/-- 42_arithmetic.md, ADD: inside the Word range the sum is exact, under either overflow policy (decision D2,
assumption 2). The bounds of the range rest on N = 32, decision D1 (assumption 1), the spec's own choice. -/
def Obligations.AddIsExactInsideTheRange : Prop :=
  ∀ (p : AddOverflow) (r s t : Nib) (st : State),
    -2147483648 ≤ (st.reg s).toInt + (st.reg t).toInt → (st.reg s).toInt + (st.reg t).toInt ≤ 2147483647 →
    ∃ u, execAddUnder p r s t st = .next u ∧ (u.reg r).toInt = (st.reg s).toInt + (st.reg t).toInt

/-- 42_arithmetic.md, the integer arithmetic law, its alternative policy (decision D2, assumption 2): the sum is
clamped to the Word range, whose bounds rest on N = 32, decision D1 (assumption 1), the spec's own choice. -/
def Obligations.SaturatingAddClampsTheSum : Prop :=
  ∀ (r s t : Nib) (st : State),
    let sum := (st.reg s).toInt + (st.reg t).toInt
    ∃ u, execAddUnder .saturate r s t st = .next u ∧
      (u.reg r).toInt = (if 2147483647 < sum then 2147483647 else if sum < -2147483648 then -2147483648 else sum) ∧
      (∀ q, q ≠ r → u.reg q = st.reg q) ∧ (∀ a, u.memRead a = st.memRead a) ∧ u.pc = st.pc ∧
      u.halt = st.halt ∧ u.pcFault = st.pcFault

/-- 95_test_vectors.md W4: ADD is commutative in its sources. -/
def Obligations.AddIsCommutative : Prop :=
  ∀ (r s t : Nib) (st : State), exec (.add r s t) st = exec (.add r t s) st

/-- 43_control.md, JUMP: absolute, any target in [0,255]. That R is ignored rests on decision D9 (assumption 9),
the spec's own choice. -/
def Obligations.JumpSetsThePc : Prop :=
  ∀ (r s t : Nib) (st : State),
    decode (encodeWord 0xB r s t) = .instr (.jump r s t) ∧
    ∃ u, exec (.jump r s t) st = .next u ∧ u.pc.toNat = 16 * s.toNat + t.toNat ∧
      (∀ q, u.reg q = st.reg q) ∧ (∀ a, u.memRead a = st.memRead a) ∧ u.halt = st.halt ∧ u.pcFault = st.pcFault

/-- 43_control.md, HALT: the flag is set and the PC keeps its advance. Rests on decisions D6 and D9 (assumptions 6
and 9), the spec's own choices. The halt cause of a state that has `pcFault` too, which no run reaches, is the
model's own choice (assumption 18). -/
def Obligations.HaltSetsTheHaltFlag : Prop :=
  ∀ (r s t : Nib) (st : State),
    decode (encodeWord 0xC r s t) = .instr (.halt r s t) ∧
    ∃ u, exec (.halt r s t) st = .next u ∧ u.halt = true ∧ u.haltCause = .halt ∧
      (∀ q, u.reg q = st.reg q) ∧ (∀ a, u.memRead a = st.memRead a) ∧ u.pc = st.pc ∧ u.pcFault = st.pcFault

/-! ### Whole-machine rules -/

/-- 10_state.md R33: an instruction writes no register but those of the table, what it does depends on no register
but those the table says it reads, and only an instruction, not an invalid opcode or the load, writes one. -/
def Obligations.RegisterUseFollowsTheTable : Prop :=
  (∀ (i : Instr) (st u : State), exec i st = .next u → ∀ q, q ∉ writesOf i → u.reg q = st.reg q) ∧
  (∀ (i : Instr) (st st' u u' : State), st.mem = st'.mem → st.pc = st'.pc → st.halt = st'.halt →
    st.pcFault = st'.pcFault → (∀ q ∈ readsOf i, st.reg q = st'.reg q) → exec i st = .next u →
    exec i st' = .next u' →
    u.mem = u'.mem ∧ u.pc = u'.pc ∧ u.halt = u'.halt ∧ u.pcFault = u'.pcFault ∧
    ∀ q ∈ writesOf i, u.reg q = u'.reg q) ∧
  (∀ (p : FetchCellPolicy) (s t : State), stepUnder p s = .next t → t.regs ≠ s.regs →
    ∃ i, cycleUnder p s = .run i ∧ writesOf i ≠ []) ∧
  (∀ (bs : List Byte) (s : State), (loadBytes bs s).1.regs = s.regs)

/-- 20_memory.md section 5: no instruction changes a cell but the one it stores to. That the read of a LOAD1 changes
no cell rests on decision D19 (assumption 19), the spec's own choice; the premise is the model's representation
(assumption 14). -/
def Obligations.OnlyTheStoredCellChanges : Prop :=
  ∀ (i : Instr) (st u : State), st.mem.wf = true → exec i st = .next u →
    ∀ a, storesTo i ≠ some a → u.memRead a = st.memRead a

/-- 43_control.md R132: no instruction but JUMP writes the PC, and a step moves it by the fetch advance, by a JUMP
or not at all. -/
def Obligations.OnlyJumpWritesThePc : Prop :=
  (∀ (i : Instr) (st u : State), exec i st = .next u → u.pc ≠ st.pc → ∃ r s t, i = .jump r s t) ∧
  (∀ (p : FetchCellPolicy) (st u : State), stepUnder p st = .next u → u.pc ≠ st.pc → u.pc ≠ st.pc + 2 →
    ∃ r s t, cycleUnder p st = .run (.jump r s t) ∧ u.pc.toNat = (pack8 s t).toNat)

/-- 10_state.md R36: the HaltFlag is false at reset, HALT alone sets it, and no step clears it. -/
def Obligations.OnlyHaltSetsTheHaltFlag : Prop :=
  State.reset.halt = false ∧
  ∀ (p : FetchCellPolicy) (s t : State), stepUnder p s = .next t →
    (t.halt = true ↔ s.halt = true ∨ endsByHalt p s)

/-- 10_state.md section 4, `pc_fault`: the checks of fetch alone set it, and no step clears it. Rests on decision
D7 (assumption 7), the spec's own choice. -/
def Obligations.OnlyFetchSetsPcFault : Prop :=
  ∀ (p : FetchCellPolicy) (s t : State), stepUnder p s = .next t →
    (t.pcFault = true ↔ s.pcFault = true ∨ endsByFetch p s)

/-- 70_reset_and_hazards.md section 5 (derived there): a Running engine is Halted after a step exactly when the PC
was out of range or the opcode it fetched was HALT's. Under the policy of decision D3 (assumption 3). -/
def Obligations.RunEndsExactlyByHaltOrPcRange : Prop :=
  ∀ s t : State, s.halted = false → step s = .next t →
    (t.halted = true ↔
      255 ≤ s.pc.toNat ∨ (s.memRead (BitVec.ofNat 8 s.pc.toNat)).toNat / 16 % 16 = 0xC)

/-- 40_engine_cycle.md section 3, Run: to run is to step until Halted, and steps after that change nothing. Rests on
decisions D7 and D8 (assumptions 7 and 8), the spec's own choices. -/
def Obligations.RunIsSteppingUntilHalted : Prop :=
  ∀ (n : Nat) (s t : State),
    run n s = some t ↔ Host.Core.run core n s = .next t ∧ t.halted = true

/-- 43_control.md, JUMP, and 70_reset_and_hazards.md section 5 (derived there): a JUMP to its own address changes
nothing, and the run never ends. That it does for every R rests on decision D9 (assumption 9), the spec's own
choice. -/
def Obligations.JumpToItselfRunsForever : Prop :=
  ∀ (s : State) (r a b : Nib), s.pc.toNat ≤ 254 →
    cycleUnder Config.fetchCellPolicy s = .run (.jump r a b) → (pack8 a b).toNat = s.pc.toNat →
    step s = .next s ∧ ∀ n, run n s = none

/-- 20_memory.md R52: the exact Word that a STORE wrote comes back from a LOAD1 of that cell, in every later state
in which the cell has not been written again. -/
def Obligations.LoadReturnsTheStoredWord : Prop :=
  ∀ (r r' s t : Nib) (st u v : State), st.mem.wf = true → exec (.store r s t) st = .next u →
    v.memRead (pack8 s t) = u.memRead (pack8 s t) →
    ∃ z, exec (.load1 r' s t) v = .next z ∧ z.reg r' = st.reg r

/-- 20_memory.md section 7 (derived there): a fetch after a STORE sees the low byte of the Word stored, in either
half of the instruction word. Under the policy of decision D3 (assumption 3). -/
def Obligations.StoreIsSeenByTheNextFetch : Prop :=
  ∀ (r s t : Nib) (st u v : State), st.mem.wf = true → exec (.store r s t) st = .next u → v.mem = u.mem →
    v.pc.toNat ≤ 254 →
    ∃ w, fetchUnder .truncate8 v = .word w ∧
      (v.pc.toNat = (pack8 s t).toNat → w.toNat / 256 = (st.reg r).toNat % 256) ∧
      (v.pc.toNat + 1 = (pack8 s t).toNat → w.toNat % 256 = (st.reg r).toNat % 256)

/-- The invariant that every step keeps, from every state that has it, under either fetch policy: the PC is in
[0,256] (10_state.md section 3, derived there), the two flags are never both true (section 4) and the memory is in
canonical form (the model's, assumption 14). -/
def Obligations.StepKeepsInvariant : Prop :=
  ∀ (p : FetchCellPolicy) (s t : State), s.Inv → stepUnder p s = .next t → t.Inv

/-- The model's representation of the memory array (assumption 14): two memories in canonical form that read alike
are the same data. -/
def Obligations.CanonicalMemoriesThatReadAlikeAreEqual : Prop :=
  ∀ m m' : Memory, m.wf = true → m'.wf = true → (∀ a, a < 256 → Memory.read m a = Memory.read m' a) → m = m'

/-! ### Interfaces -/

/-- 95_test_vectors.md W1 and W2: the register file's accessors. Out of range nothing is wrapped or clamped. -/
def Obligations.RegisterInterfaceIsBoundsSafe : Prop :=
  ∀ (s : State) (a : Int) (v : Word),
    (0 ≤ a ∧ a < 16 →
      ∃ t, writeRegister s a v = .ok t ∧ readRegister t a = .ok v ∧
        (∀ b, b ≠ a → readRegister t b = readRegister s b) ∧ (∀ b, readMemory t b = readMemory s b)) ∧
    (¬(0 ≤ a ∧ a < 16) →
      readRegister s a = .error (.addressOutOfRange .register a) ∧
      writeRegister s a v = .error (.addressOutOfRange .register a))

/-- 20_memory.md section 2 (derived there): the memory array's accessors. -/
def Obligations.MemoryInterfaceIsBoundsSafe : Prop :=
  ∀ (s : State) (a : Int) (v : Word), s.mem.wf = true →
    (0 ≤ a ∧ a < 256 →
      ∃ t, writeMemory s a v = .ok t ∧ readMemory t a = .ok v ∧
        (∀ b, b ≠ a → readMemory t b = readMemory s b) ∧ (∀ b, readRegister t b = readRegister s b)) ∧
    (¬(0 ≤ a ∧ a < 256) →
      readMemory s a = .error (.addressOutOfRange .memory a) ∧
      writeMemory s a v = .error (.addressOutOfRange .memory a))

/-- 40_engine_cycle.md section 3, Observation (decision D18): the port shows all registers and cells 0 to 15. -/
def Obligations.ObservationShowsRegistersAndFirstCells : Prop :=
  ∀ (s : State) (k : Nat) (h : k < 16),
    (observe s).regs[k] = s.reg (BitVec.ofNat 4 k) ∧ (observe s).cells[k] = s.memRead (BitVec.ofNat 8 k)

/-- Decision D13 (assumption 15), the spec's own choice: loading a byte an edge, at addresses 0, 1, 2, …, leaves the
core as the load operation does. -/
def Obligations.PortLoadIsTheLoadOperation : Prop :=
  ∀ bs : List Byte, bs.length ≤ 256 →
    edges (loadDrive 0 bs) Block.reset = { core := boot bs, started := false, lastDiag := .nothing }

/-- Decisions D12 and D13 (assumptions 12 and 15), the spec's own choices: an edge with `step_en` makes one step and
shows its diagnostic; once a step was made `ld_en` does nothing; `rst` constructs the core anew. That `rst` does
so whatever the other inputs are is the MODEL'S OWN choice, which the spec does not state (assumption 15). An
edge with `step_en` and `ld_en` before the first step is left out, since the spec leaves it open. -/
def Obligations.PortEdgeStepsTheCore : Prop :=
  ∀ (i : PortsIn) (b : Block),
    (i.rst = true → edge i b = Block.reset) ∧
    (i.rst = false → i.stepEn = true → i.ldEn = false ∨ b.started = true →
      ∃ t, step b.core = .next t ∧
        edge i b = { core := t, started := true, lastDiag := diagnostic b.core }) ∧
    (i.rst = false → i.stepEn = false → i.ldEn = false ∨ b.started = true → edge i b = b)

/-- 70_reset_and_hazards.md section 1 and decisions D8, D12 and D13 (assumptions 8, 12 and 15): nothing but
construction changes a Halted core. -/
def Obligations.OnlyConstructionLeavesHalted : Prop :=
  ∀ (i : PortsIn) (b : Block), i.rst = false → b.core.halted = true → (edge i b).core = b.core

/-- 40_engine_cycle.md section 3, the host's operations, with decisions D12 and D13 (assumptions 12 and 15), the
spec's own choices: no load lands after the first step. An edge that steps takes the core's step as its last act,
from the core as it stood or, before the first step, with the cell of an enabled load written. That the two are
then taken one after the other is the MODEL'S OWN choice (assumption 15), and the statement holds for either
order. An edge that does not step writes at most the cell of an enabled load. -/
def Obligations.NoLoadLandsAfterAStep : Prop :=
  ∀ (i : PortsIn) (b : Block), i.rst = false →
    let enabled := i.ldEn = true ∧ b.started = false ∧ b.core.halted = false
    let loaded := b.core.memWrite i.ldAddr (zextByte i.ldData)
    (i.stepEn = true → ∃ c t, (c = b.core ∨ (enabled ∧ c = loaded)) ∧ step c = .next t ∧
      edge i b = { core := t, started := true, lastDiag := diagnostic c }) ∧
    (i.stepEn = false → (enabled → edge i b = { b with core := loaded }) ∧ (¬enabled → edge i b = b))
end

