-- ==== Sys2Proof/Laws/Decode.lean ====
section
/-! SUPPORT. The fields of encoded words, and what the opcode map selects. -/

namespace Sys2Proof

/-- `encode_word` is the concatenation of the four fields (30_encoding.md R70, R79). -/
theorem encodeWord_eq_append (op r s t : Nib) : encodeWord op r s t = op ++ r ++ s ++ t := by
  apply BitVec.eq_of_getLsbD_eq
  intro i hi
  simp only [encodeWord, BitVec.getLsbD_or, BitVec.getLsbD_shiftLeft, BitVec.getLsbD_setWidth, BitVec.getLsbD_append]
  interval_cases i <;> simp

theorem decodeFields_append (op r s t : Nib) : decodeFields (op ++ r ++ s ++ t) = ⟨op, r, s, t⟩ := by
  have field : ∀ (w : InstrWord) (k : Nat) (f : Nib), (∀ j < 4, w.getLsbD (k + j) = f.getLsbD j) →
      w.extractLsb' k 4 = f := by
    intro w k f h
    apply BitVec.eq_of_getLsbD_eq
    intro j hj
    simp [hj, h j hj]
  simp only [decodeFields, Fields.mk.injEq]
  refine ⟨field _ _ _ ?_, field _ _ _ ?_, field _ _ _ ?_, field _ _ _ ?_⟩ <;>
    (intro j hj
     change (op ++ r ++ s ++ t : BitVec (4 + 4 + 4 + 4)).getLsbD _ = _
     simp only [BitVec.getLsbD_append]
     interval_cases j <;> simp)

theorem selectInstr_fields (i : Instr) : selectInstr i.fields = .instr i := by
  cases i <;> rfl

/-- An instruction selected from fields has those fields. -/
theorem fields_of_selectInstr {f : Fields} {i : Instr} (h : selectInstr f = .instr i) : i.fields = f := by
  obtain ⟨op, r, s, t⟩ := f
  revert h
  simp only [selectInstr]
  split_ifs with h1 h2 h3 h4 h5 h6 h7 <;> intro h <;> cases h <;> simp_all [Instr.fields]

/-- An opcode that is none of the seven is not defined (R73, R77). -/
theorem invalid_op (op : Nib) (h1 : op ≠ 0x1) (h2 : op ≠ 0x2) (h3 : op ≠ 0x3) (h4 : op ≠ 0x4) (h5 : op ≠ 0x5)
    (h6 : op ≠ 0xB) (h7 : op ≠ 0xC) : definedOpcode op = false := by
  have all : ∀ o : Nib, o = 1 ∨ o = 2 ∨ o = 3 ∨ o = 4 ∨ o = 5 ∨ o = 0xB ∨ o = 0xC ∨ definedOpcode o = false := by
    decide
  have := all op
  simp_all

/-- A selection that names no instruction gives the fields back, and their opcode is invalid (R77). -/
theorem invalid_of_selectInstr {f g : Fields} (h : selectInstr f = .invalidOpcode g) :
    g = f ∧ f.wellFormed = false := by
  obtain ⟨op, r, s, t⟩ := f
  revert h
  simp only [selectInstr]
  split_ifs with h1 h2 h3 h4 h5 h6 h7 <;> intro h <;> cases h
  exact ⟨rfl, invalid_op op h1 h2 h3 h4 h5 h6 h7⟩

end Sys2Proof
end

