-- ==== Sys2Proof/Laws/State.lean ====
section
/-! SUPPORT. One lemma per field per update of State, and what a register read gives after an update. -/

namespace Sys2Proof.Machine

@[simp] theorem State.setReg_mem (s : State) (i : Nib) (v : Word) : (s.setReg i v).mem = s.mem := rfl
@[simp] theorem State.setReg_pc (s : State) (i : Nib) (v : Word) : (s.setReg i v).pc = s.pc := rfl
@[simp] theorem State.setReg_halt (s : State) (i : Nib) (v : Word) : (s.setReg i v).halt = s.halt := rfl
@[simp] theorem State.setReg_pcFault (s : State) (i : Nib) (v : Word) : (s.setReg i v).pcFault = s.pcFault := rfl

@[simp] theorem State.memWrite_regs (s : State) (a : Byte) (v : Word) : (s.memWrite a v).regs = s.regs := rfl
@[simp] theorem State.memWrite_mem (s : State) (a : Byte) (v : Word) :
    (s.memWrite a v).mem = s.mem.write a.toNat v := rfl
@[simp] theorem State.memWrite_pc (s : State) (a : Byte) (v : Word) : (s.memWrite a v).pc = s.pc := rfl
@[simp] theorem State.memWrite_halt (s : State) (a : Byte) (v : Word) : (s.memWrite a v).halt = s.halt := rfl
@[simp] theorem State.memWrite_pcFault (s : State) (a : Byte) (v : Word) :
    (s.memWrite a v).pcFault = s.pcFault := rfl

@[simp] theorem State.setPc_regs (s : State) (p : Pc) : (s.setPc p).regs = s.regs := rfl
@[simp] theorem State.setPc_mem (s : State) (p : Pc) : (s.setPc p).mem = s.mem := rfl
@[simp] theorem State.setPc_pc (s : State) (p : Pc) : (s.setPc p).pc = p := rfl
@[simp] theorem State.setPc_halt (s : State) (p : Pc) : (s.setPc p).halt = s.halt := rfl
@[simp] theorem State.setPc_pcFault (s : State) (p : Pc) : (s.setPc p).pcFault = s.pcFault := rfl

@[simp] theorem State.advance_regs (s : State) : s.advance.regs = s.regs := rfl
@[simp] theorem State.advance_mem (s : State) : s.advance.mem = s.mem := rfl
@[simp] theorem State.advance_pc (s : State) : s.advance.pc = s.pc + 2 := rfl
@[simp] theorem State.advance_halt (s : State) : s.advance.halt = s.halt := rfl
@[simp] theorem State.advance_pcFault (s : State) : s.advance.pcFault = s.pcFault := rfl

@[simp] theorem State.setHalt_regs (s : State) : s.setHalt.regs = s.regs := rfl
@[simp] theorem State.setHalt_mem (s : State) : s.setHalt.mem = s.mem := rfl
@[simp] theorem State.setHalt_pc (s : State) : s.setHalt.pc = s.pc := rfl
@[simp] theorem State.setHalt_halt (s : State) : s.setHalt.halt = true := rfl
@[simp] theorem State.setHalt_pcFault (s : State) : s.setHalt.pcFault = s.pcFault := rfl

@[simp] theorem State.setPcFault_regs (s : State) : s.setPcFault.regs = s.regs := rfl
@[simp] theorem State.setPcFault_mem (s : State) : s.setPcFault.mem = s.mem := rfl
@[simp] theorem State.setPcFault_pc (s : State) : s.setPcFault.pc = s.pc := rfl
@[simp] theorem State.setPcFault_halt (s : State) : s.setPcFault.halt = s.halt := rfl
@[simp] theorem State.setPcFault_pcFault (s : State) : s.setPcFault.pcFault = true := rfl

@[simp] theorem State.reg_memWrite (s : State) (a : Byte) (v : Word) (i : Nib) : (s.memWrite a v).reg i = s.reg i := rfl
@[simp] theorem State.reg_setPc (s : State) (p : Pc) (i : Nib) : (s.setPc p).reg i = s.reg i := rfl
@[simp] theorem State.reg_advance (s : State) (i : Nib) : s.advance.reg i = s.reg i := rfl
@[simp] theorem State.reg_setHalt (s : State) (i : Nib) : s.setHalt.reg i = s.reg i := rfl
@[simp] theorem State.reg_setPcFault (s : State) (i : Nib) : s.setPcFault.reg i = s.reg i := rfl

/-- A register read after a register write (10_state.md R31). -/
theorem State.reg_setReg (s : State) (i j : Nib) (v : Word) :
    (s.setReg i v).reg j = if i = j then v else s.reg j := by
  simp only [State.reg, State.setReg, Vector.getElem_set, BitVec.toNat_inj]

@[simp] theorem State.reg_setReg_same (s : State) (i : Nib) (v : Word) : (s.setReg i v).reg i = v := by
  simp [State.reg_setReg]

theorem State.reg_setReg_of_ne (s : State) {i j : Nib} (v : Word) (h : i ≠ j) :
    (s.setReg i v).reg j = s.reg j := by
  simp [State.reg_setReg, h]

/-- Registers that read alike are the same register file. -/
theorem State.regs_ext {s t : State} (h : ∀ i, s.reg i = t.reg i) : s.regs = t.regs := by
  apply Vector.ext
  intro k hk
  have := h (BitVec.ofNatLT k hk)
  simpa only [State.reg, BitVec.toNat_ofNatLT] using this

@[simp] theorem State.memRead_setReg (s : State) (i : Nib) (v : Word) (a : Byte) :
    (s.setReg i v).memRead a = s.memRead a := rfl
@[simp] theorem State.memRead_setPc (s : State) (p : Pc) (a : Byte) : (s.setPc p).memRead a = s.memRead a := rfl
@[simp] theorem State.memRead_advance (s : State) (a : Byte) : s.advance.memRead a = s.memRead a := rfl
@[simp] theorem State.memRead_setHalt (s : State) (a : Byte) : s.setHalt.memRead a = s.memRead a := rfl
@[simp] theorem State.memRead_setPcFault (s : State) (a : Byte) : s.setPcFault.memRead a = s.memRead a := rfl

theorem State.halted_eq_true {s : State} : s.halted = true ↔ s.halt = true ∨ s.pcFault = true := by
  simp [State.halted]

theorem State.halted_eq_false {s : State} : s.halted = false ↔ s.halt = false ∧ s.pcFault = false := by
  simp [State.halted]

end Sys2Proof.Machine
end

