-- ==== Sys2Proof/Laws/Memory.lean ====
section
/-! SUPPORT. The memory array: a read after a write, and the canonical form, which every operation keeps. -/

namespace Sys2Proof.Machine

theorem Memory.wfFrom_cons {lo k : Nat} {v : Word} {m : Memory} :
    Memory.wfFrom lo ((k, v) :: m) = true ↔
      lo ≤ k ∧ k < 256 ∧ v ≠ Config.memInit ∧ Memory.wfFrom (k + 1) m = true := by
  simp [Memory.wfFrom, and_assoc]

/-- A canonical memory from a higher address on is one from a lower address on. -/
theorem Memory.wfFrom_mono {lo hi : Nat} (h : lo ≤ hi) {m : Memory} (hm : Memory.wfFrom hi m = true) :
    Memory.wfFrom lo m = true := by
  cases m with
  | nil => rfl
  | cons e m =>
    obtain ⟨k, v⟩ := e
    rw [Memory.wfFrom_cons] at hm ⊢
    exact ⟨h.trans hm.1, hm.2⟩

/-- Below its first address a canonical memory holds nothing. -/
theorem Memory.read_below {lo : Nat} {m : Memory} (hm : Memory.wfFrom lo m = true) {a : Nat} (h : a < lo) :
    m.read a = Config.memInit := by
  induction m generalizing lo with
  | nil => rfl
  | cons e m ih =>
    obtain ⟨k, v⟩ := e
    rw [Memory.wfFrom_cons] at hm
    have hk : k ≠ a := by omega
    simpa [Memory.read, hk] using ih hm.2.2.2 (show a < k + 1 by omega)

/-- A read after a write: the value written at its address, what stood there before elsewhere (20_memory.md R51). -/
theorem Memory.read_write {lo : Nat} {m : Memory} (hm : Memory.wfFrom lo m = true) (a b : Nat) (v : Word) :
    (m.write a v).read b = if a = b then v else m.read b := by
  induction m generalizing lo with
  | nil =>
    by_cases hv : v = Config.memInit <;> by_cases hab : a = b <;> simp [Memory.write, Memory.read, hv, hab]
  | cons e m ih =>
    obtain ⟨k, w⟩ := e
    obtain ⟨_, _, hw, hm'⟩ := Memory.wfFrom_cons.mp hm
    have below : ∀ c, c ≤ k → Memory.read m c = Config.memInit :=
      fun c hc => Memory.read_below hm' (Nat.lt_succ_of_le hc)
    have rest := ih hm'
    rcases Nat.lt_trichotomy k a with h | h | h
    · by_cases hb : k = b
      · subst hb
        have hak : a ≠ k := by omega
        simp [Memory.write, Memory.read, h, hak]
      · simpa [Memory.write, Memory.read, h, hb] using rest
    · subst h
      by_cases hv : v = Config.memInit <;> by_cases hb : k = b
      · simp [Memory.write, hv, hb, below b (by omega)]
      · simp [Memory.write, Memory.read, hv, hb]
      · simp [Memory.write, Memory.read, hv, hb]
      · simp [Memory.write, Memory.read, hv, hb]
    · have h1 : ¬k < a := by omega
      have h2 : k ≠ a := by omega
      by_cases hv : v = Config.memInit <;> by_cases hb : a = b
      · subst hb
        simp [Memory.write, Memory.read, h1, h2, hv, below a (by omega)]
      · simp [Memory.write, h1, h2, hv, hb]
      · subst hb
        simp [Memory.write, Memory.read, h1, h2, hv]
      · simp [Memory.write, Memory.read, h1, h2, hv, hb]

/-- A write to an existing cell keeps the canonical form. -/
theorem Memory.wfFrom_write {lo : Nat} {m : Memory} (hm : Memory.wfFrom lo m = true) {a : Nat} (hlo : lo ≤ a)
    (ha : a < 256) (v : Word) : Memory.wfFrom lo (m.write a v) = true := by
  induction m generalizing lo with
  | nil => by_cases hv : v = Config.memInit <;> simp [Memory.write, Memory.wfFrom, hv, hlo, ha]
  | cons e m ih =>
    obtain ⟨k, w⟩ := e
    obtain ⟨h1, h2, h3, h4⟩ := Memory.wfFrom_cons.mp hm
    simp only [Memory.write]
    split_ifs with hk he hv hv
    · exact Memory.wfFrom_cons.mpr ⟨h1, h2, h3, ih h4 hk⟩
    · exact Memory.wfFrom_mono (show lo ≤ k + 1 by omega) h4
    · exact Memory.wfFrom_cons.mpr ⟨hlo, ha, hv, he ▸ h4⟩
    · exact hm
    · exact Memory.wfFrom_cons.mpr ⟨hlo, ha, hv, Memory.wfFrom_cons.mpr ⟨by omega, h2, h3, h4⟩⟩

theorem Memory.wf_write {m : Memory} (hm : m.wf = true) {a : Nat} (ha : a < 256) (v : Word) :
    (m.write a v).wf = true := Memory.wfFrom_write hm (Nat.zero_le a) ha v

theorem State.memWrite_wf {s : State} (h : s.mem.wf = true) (a : Byte) (v : Word) :
    (s.memWrite a v).mem.wf = true := Memory.wf_write h a.isLt v

theorem loadFrom_wf (bs : List Byte) {a : Nat} {m : Memory} (hm : m.wf = true) : (loadFrom a bs m).wf = true := by
  induction bs generalizing a m with
  | nil => exact hm
  | cons b bs ih =>
    simp only [loadFrom]
    split_ifs with h
    · exact ih (Memory.wf_write hm h _)
    · exact hm

theorem State.placeWord_wf {s : State} (h : s.mem.wf = true) (w : InstrWord) : (s.placeWord w).mem.wf = true := by
  unfold State.placeWord
  split_ifs
  · exact h
  · exact State.memWrite_wf (State.memWrite_wf h _ _) _ _

theorem State.reset_wf : State.reset.mem.wf = true := rfl

/-- A cell read after a cell write (20_memory.md R51). -/
theorem State.memRead_memWrite {s : State} (h : s.mem.wf = true) (a b : Byte) (v : Word) :
    (s.memWrite a v).memRead b = if a = b then v else s.memRead b := by
  simp only [State.memRead, State.memWrite_mem, Memory.read_write h, BitVec.toNat_inj]

end Sys2Proof.Machine
end

