-- ==== Sys2Proof/Laws/Operands.lean ====
section
/-! SUPPORT. What each operand form and each computation on values gives. -/

namespace Sys2Proof.Machine

theorem pack8_eq_append (s t : Nib) : pack8 s t = s ++ t := by
  apply BitVec.eq_of_toNat_eq
  revert s t
  decide

theorem pack8_toNat (s t : Nib) : (pack8 s t).toNat = 16 * s.toNat + t.toNat := by
  revert s t
  decide

theorem zextByte_toNat (b : Byte) : (zextByte b).toNat = b.toNat := by
  have := b.isLt
  simp only [zextByte, BitVec.toNat_setWidth]
  omega

theorem zextByte_toInt (b : Byte) : (zextByte b).toInt = b.toNat := by
  have := b.isLt
  rw [BitVec.toInt_eq_toNat_of_lt] <;> rw [zextByte_toNat]
  omega

theorem cellByte_zextByte (b : Byte) : cellByte (zextByte b) = b := by
  have := b.isLt
  apply BitVec.eq_of_toNat_eq
  simp only [cellByte, BitVec.toNat_setWidth, zextByte_toNat]
  omega

theorem isByteCell_zextByte (b : Byte) : isByteCell (zextByte b) = true := by
  have := b.isLt
  simp only [isByteCell, zextByte_toInt, decide_eq_true_eq]
  omega

/-- A byte loaded into a cell is fetched as it is, under either policy (20_memory.md R55). -/
theorem fetchByte_zextByte (p : FetchCellPolicy) (b : Byte) : fetchByte p (zextByte b) = some b := by
  cases p <;> simp [fetchByte, cellByte_zextByte, isByteCell_zextByte]

/-- Under either policy a byte cell is fetched as its low byte. -/
theorem fetchByte_of_isByteCell (p : FetchCellPolicy) {c : Word} (h : isByteCell c = true) :
    fetchByte p c = some (cellByte c) := by
  cases p <;> simp [fetchByte, h]

/-- A sum inside the Word range is exact under either overflow policy (42_arithmetic.md R121). -/
theorem addUnder_toInt_of_inRange (p : AddOverflow) {a b : Word} (hlo : -2147483648 ≤ a.toInt + b.toInt)
    (hhi : a.toInt + b.toInt ≤ 2147483647) : (addUnder p a b).toInt = a.toInt + b.toInt := by
  cases p
  · simp only [addUnder, wrapN, BitVec.toInt_ofInt]
    rw [Int.bmod_eq_of_le] <;> omega
  · simp only [addUnder, clampN, BitVec.toInt_ofInt]
    rw [Int.bmod_eq_of_le] <;> omega

end Sys2Proof.Machine
end

