-- ==== Sys2Proof/Laws/PerInstr.lean ====
section
/-! SUPPORT. Statements per instruction, over its syntax. Family FieldsOfEncode: the decoder reads from an
instruction's word the fields the instruction stands for (30_encoding.md R70, R76, R79). -/

namespace Sys2Proof.Laws.FieldsOfEncode

/-- The fields of the encoded instruction are the instruction's. -/
def Statement (i : Instr) : Prop := decodeFields (encode i) = i.fields

theorem of_fields (i : Instr) : Statement i := by
  simp only [Statement, encode, encodeWord_eq_append, decodeFields_append]

theorem load1 (r s t : Nib) : Statement (.load1 r s t) := of_fields _
theorem load2 (r s t : Nib) : Statement (.load2 r s t) := of_fields _
theorem store (r s t : Nib) : Statement (.store r s t) := of_fields _
theorem move (r s t : Nib) : Statement (.move r s t) := of_fields _
theorem add (r s t : Nib) : Statement (.add r s t) := of_fields _
theorem jump (r s t : Nib) : Statement (.jump r s t) := of_fields _
theorem halt (r s t : Nib) : Statement (.halt r s t) := of_fields _

end Sys2Proof.Laws.FieldsOfEncode
end

