-- ==== Sys2Proof/Laws/Step.lean ====
section
/-! SUPPORT. Said once: everything a fetch, an instruction and a step can do. -/

namespace Sys2Proof.Machine

/-- The range check on the PC as a number (40_engine_cycle.md R91). -/
theorem pc_inRange_iff (pc : Pc) : ¬255 ≤ pc ↔ pc.toNat ≤ 254 := by
  have : (255 : Pc).toNat = 255 := rfl
  rw [BitVec.le_def, this]
  omega

theorem fetchUnder_of_pcOutOfRange (p : FetchCellPolicy) {s : State} (h : 255 ≤ s.pc) :
    fetchUnder p s = .pcOutOfRange := by
  unfold fetchUnder
  rw [if_pos h]

/-- A fetch inside the range whose two cells both give a byte. -/
theorem fetchUnder_of_bytes {p : FetchCellPolicy} {s : State} (h : ¬255 ≤ s.pc) {hi lo : Byte}
    (hhi : fetchByte p (s.memRead (cellOfPc s.pc)) = some hi)
    (hlo : fetchByte p (s.memRead (cellOfPc (s.pc + 1))) = some lo) :
    fetchUnder p s = .word (wordOfBytes hi lo) := by
  unfold fetchUnder
  rw [if_neg h, hhi, hlo]

/-- Under the policy the spec takes, every fetch inside the range gives a word (20_memory.md R55). -/
theorem fetchUnder_truncate8 {s : State} (h : ¬255 ≤ s.pc) :
    fetchUnder .truncate8 s =
      .word (wordOfBytes (cellByte (s.memRead (cellOfPc s.pc))) (cellByte (s.memRead (cellOfPc (s.pc + 1))))) :=
  fetchUnder_of_bytes h rfl rfl

/-- A fetch that gives a word passed the range check. -/
theorem pc_lt_of_fetchUnder_word {p : FetchCellPolicy} {s : State} {w : InstrWord} (h : fetchUnder p s = .word w) :
    ¬255 ≤ s.pc := by
  intro h'
  simp [fetchUnder_of_pcOutOfRange p h'] at h

/-- What an instruction does, said once: it always has this next state. -/
def effectOf (i : Instr) (s : State) : State :=
  match i with
  | .load1 r a b => s.setReg r (s.memRead (pack8 a b))
  | .load2 r a b => s.setReg r (zextByte (pack8 a b))
  | .store r a b => s.memWrite (pack8 a b) (s.reg r)
  | .move r a _ => s.setReg r (s.reg a)
  | .add r a b => s.setReg r (addUnder Config.addOverflow (s.reg a) (s.reg b))
  | .jump _ a b => s.setPc ((pack8 a b).setWidth 9)
  | .halt _ _ _ => s.setHalt

theorem exec_eq_next (i : Instr) (s : State) : exec i s = .next (effectOf i s) := by
  cases i <;> rfl

theorem effectOf_of_exec {i : Instr} {s t : State} (h : exec i s = .next t) : t = effectOf i s := by
  rw [exec_eq_next] at h
  injection h with h
  exact h.symm

/-- What a step is about to do decides which checks applied, in the order of 60_exceptions.md R143. -/
theorem cycleUnder_cases (p : FetchCellPolicy) (s : State) :
    (s.halted = true ∧ cycleUnder p s = .halted) ∨
    (s.halted = false ∧ fetchUnder p s = .pcOutOfRange ∧ cycleUnder p s = .pcOutOfRange s.pc) ∨
    (s.halted = false ∧ fetchUnder p s = .cellNotByte ∧ cycleUnder p s = .cellNotByte s.pc) ∨
    (∃ w f, s.halted = false ∧ fetchUnder p s = .word w ∧ decode w = .invalidOpcode f ∧
      cycleUnder p s = .invalidOpcode f.op s.pc w) ∨
    (∃ w i, s.halted = false ∧ fetchUnder p s = .word w ∧ decode w = .instr i ∧ cycleUnder p s = .run i) := by
  cases hh : s.halted with
  | true => exact .inl ⟨rfl, by simp [cycleUnder, hh]⟩
  | false =>
    cases hf : fetchUnder p s with
    | pcOutOfRange => exact .inr (.inl ⟨rfl, rfl, by simp [cycleUnder, hh, hf]⟩)
    | cellNotByte => exact .inr (.inr (.inl ⟨rfl, rfl, by simp [cycleUnder, hh, hf]⟩))
    | word w =>
      cases hd : decode w with
      | invalidOpcode f => exact .inr (.inr (.inr (.inl ⟨w, f, rfl, rfl, hd, by simp [cycleUnder, hh, hf, hd]⟩)))
      | instr i => exact .inr (.inr (.inr (.inr ⟨w, i, rfl, rfl, hd, by simp [cycleUnder, hh, hf, hd]⟩)))

/-- Everything a step can do: nothing, set `pc_fault`, pass over an invalid opcode, or run an instruction on the
state after the PC advance (40_engine_cycle.md R97). -/
theorem stepUnder_cases (p : FetchCellPolicy) (s : State) :
    (s.halted = true ∧ stepUnder p s = .next s) ∨
    (s.halted = false ∧ (fetchUnder p s = .pcOutOfRange ∨ fetchUnder p s = .cellNotByte) ∧
      stepUnder p s = .next s.setPcFault) ∨
    (∃ w f, s.halted = false ∧ fetchUnder p s = .word w ∧ decode w = .invalidOpcode f ∧
      stepUnder p s = .next s.advance) ∨
    (∃ w i, s.halted = false ∧ fetchUnder p s = .word w ∧ decode w = .instr i ∧
      stepUnder p s = .next (effectOf i s.advance)) := by
  rcases cycleUnder_cases p s with ⟨hh, hc⟩ | ⟨hh, hf, hc⟩ | ⟨hh, hf, hc⟩ | ⟨w, f, hh, hf, hd, hc⟩ | ⟨w, i, hh, hf, hd, hc⟩
  · exact .inl ⟨hh, by simp [stepUnder, hc, haltedStep]⟩
  · exact .inr (.inl ⟨hh, .inl hf, by simp [stepUnder, hc, haltOnFetchFailure]⟩)
  · exact .inr (.inl ⟨hh, .inr hf, by simp [stepUnder, hc, haltOnFetchFailure]⟩)
  · exact .inr (.inr (.inl ⟨w, f, hh, hf, hd, by simp [stepUnder, hc, execInvalidOpcode]⟩))
  · exact .inr (.inr (.inr ⟨w, i, hh, hf, hd, by simp [stepUnder, hc, exec_eq_next]⟩))

/-- The diagnostic of a step, said once (40_engine_cycle.md R98). -/
theorem diagnosticUnder_cases (p : FetchCellPolicy) (s : State) :
    (s.halted = true ∧ diagnosticUnder p s = .nothing) ∨
    (s.halted = false ∧ fetchUnder p s = .pcOutOfRange ∧ diagnosticUnder p s = .programCounterOutOfRange s.pc) ∨
    (s.halted = false ∧ fetchUnder p s = .cellNotByte ∧ diagnosticUnder p s = .fetchCellNotByte s.pc) ∨
    (∃ w f, s.halted = false ∧ fetchUnder p s = .word w ∧ decode w = .invalidOpcode f ∧
      diagnosticUnder p s = .invalidOpcode f.op s.pc w) ∨
    (∃ w i, s.halted = false ∧ fetchUnder p s = .word w ∧ decode w = .instr i ∧ diagnosticUnder p s = .nothing) := by
  rcases cycleUnder_cases p s with ⟨hh, hc⟩ | ⟨hh, hf, hc⟩ | ⟨hh, hf, hc⟩ | ⟨w, f, hh, hf, hd, hc⟩ | ⟨w, i, hh, hf, hd, hc⟩
  · exact .inl ⟨hh, by simp [diagnosticUnder, hc]⟩
  · exact .inr (.inl ⟨hh, hf, by simp [diagnosticUnder, hc]⟩)
  · exact .inr (.inr (.inl ⟨hh, hf, by simp [diagnosticUnder, hc]⟩))
  · exact .inr (.inr (.inr (.inl ⟨w, f, hh, hf, hd, by simp [diagnosticUnder, hc]⟩)))
  · exact .inr (.inr (.inr (.inr ⟨w, i, hh, hf, hd, by simp [diagnosticUnder, hc]⟩)))

end Sys2Proof.Machine
end

