-- ==== Sys2Proof/Laws/Ports.lean ====
section
/-! SUPPORT. Everything a clock edge can do (92_eei_decisions.md decision D13; assumption 15). -/

namespace Sys2Proof.Machine

/-- A load counts only with `ld_en`, before the first step and while Running. -/
theorem loadEnabled_eq_true {i : PortsIn} {b : Block} :
    loadEnabled i b = true ↔ i.ldEn = true ∧ b.started = false ∧ b.core.halted = false := by
  simp [loadEnabled, and_assoc]

/-- A step has a next state, whatever the state is (`stepUnder_cases`). -/
theorem step_next (s : State) : ∃ t, step s = .next t := by
  rcases stepUnder_cases Config.fetchCellPolicy s with ⟨_, h⟩ | ⟨_, _, h⟩ | ⟨_, _, _, _, _, h⟩ | ⟨_, _, _, _, _, h⟩ <;>
    exact ⟨_, h⟩

/-- Without `step_en` no step is made. -/
theorem portStep_of_idle {i : PortsIn} (h : i.stepEn = false) (b : Block) : portStep i b = b := by
  simp [portStep, h]

/-- With `step_en` the block takes the core's step and holds its diagnostic. -/
theorem portStep_of_step {i : PortsIn} (h : i.stepEn = true) {b : Block} {t : State} (ht : step b.core = .next t) :
    portStep i b = { core := t, started := true, lastDiag := diagnostic b.core } := by
  simp [portStep, h, ht]

/-- A step leaves the block past its first step, so no load counts after it (40_engine_cycle.md R103). -/
theorem portLoad_of_started {i : PortsIn} {b : Block} (h : b.started = true) : portLoad i b = b := by
  simp [portLoad, loadEnabled, h]

/-- Everything an edge can do: construct anew; a load alone, or nothing where it does not count; or a step, from
the block with or without the load, and nothing after it. -/
theorem edge_cases (i : PortsIn) (b : Block) :
    (i.rst = true ∧ edge i b = Block.reset) ∨
    (i.rst = false ∧ i.stepEn = false ∧ edge i b = portLoad i b) ∨
    (i.rst = false ∧ i.stepEn = true ∧ ∃ c, (c = b ∨ c = portLoad i b) ∧ edge i b = portStep i c) := by
  cases hr : i.rst with
  | true => exact .inl ⟨rfl, by simp [edge, hr]⟩
  | false =>
    cases hs : i.stepEn with
    | false => exact .inr (.inl ⟨rfl, rfl, by simp [edge, hr, portStep_of_idle hs]⟩)
    | true =>
      refine .inr (.inr ⟨rfl, rfl, ?_⟩)
      cases ho : Config.loadBeforeStep with
      | true => exact ⟨portLoad i b, .inr rfl, by simp [edge, hr, ho]⟩
      | false =>
        obtain ⟨t, ht⟩ := step_next b.core
        refine ⟨b, .inl rfl, ?_⟩
        have past : portLoad i (portStep i b) = portStep i b := portLoad_of_started (by rw [portStep_of_step hs ht])
        simp [edge, hr, ho, past]

end Sys2Proof.Machine
end

