-- ==== Sys2Proof/Tests/Slice0.lean ====
section
/-! SUPPORT. Tests of the model: expected results from 95_test_vectors.md, or worked out by hand from the rule
named; the check that ill-formed terms are refused; and, for every statement with hypotheses, a state and
operands that meet them. -/

namespace Sys2Proof.Tests

open Sys2Proof.Machine

/-- The state after one step from `s` with the word `w` placed where the step fetches. -/
def stepWord (w : InstrWord) (s : State) : Option State :=
  match step (s.placeWord w) with
  | .next t => some t
  | .fault _ => none
  | .refused _ => none

/-- The state after one instruction, without fetch or PC advance. -/
def execInstr (i : Instr) (s : State) : Option State :=
  match exec i s with
  | .next t => some t
  | .fault _ => none
  | .refused _ => none

/-! ### Well-formedness: what the checks refuse -/

/-- Opcode 0x9 names no instruction (R77). -/
theorem test_fields_refuse_invalid_opcode : Fields.wellFormed ⟨0x9, 0, 0, 0⟩ = false := by decide
/-- All nine invalid opcodes are refused and all seven others accepted (R73, R77). -/
theorem test_defined_opcodes :
    (List.range 16).filter (fun n => definedOpcode (BitVec.ofNat 4 n)) = [1, 2, 3, 4, 5, 11, 12] := by decide
/-- T = 15 in a MOVE is legal and not canonical (R75). -/
theorem test_canonical_refuses_move : Instr.canonical (.move 5 4 15) = false := by decide
/-- R = 7 in a JUMP is legal and not canonical (R75). -/
theorem test_canonical_refuses_jump : Instr.canonical (.jump 7 15 15) = false := by decide
/-- 0xC123 is HALT and not canonical (R75). -/
theorem test_canonical_refuses_halt : Instr.canonical (.halt 1 2 3) = false := by decide
/-- R16 and addresses over 255 cannot be assembled (R80), operand by operand. -/
theorem test_asm_refuses :
    [Asm.load1 16 0, .load1 0 256, .load2 16 0, .load2 0 256, .store 16 0, .store 0 256, .move 16 0, .move 0 16,
      .add 16 0 0, .add 0 16 0, .add 0 0 16, .jump 256].all (fun i => !i.wellFormed && i.assemble == none) = true := by
  decide
/-- A memory out of order, beyond cell 255, or listing a cell that holds `Config.memInit` is not canonical. -/
theorem test_memory_refuses :
    Memory.wf [(2, 1), (1, 1)] = false ∧ Memory.wf [(1, 1), (1, 2)] = false ∧ Memory.wf [(256, 1)] = false ∧
      Memory.wf [(1, 0)] = false := by decide

/-! ### Decoding: words written out from the encodings -/

/-- R110 `0001 rrrr ssss tttt`; 2.1. -/
theorem test_decode_load1 : decode 0b0001010001000000 = .instr (.load1 4 4 0) := by decide
/-- R111 `0010 rrrr ssss tttt`; 2.1. -/
theorem test_decode_load2 : decode 0b0010000000000101 = .instr (.load2 0 0 5) := by decide
/-- R112 `0011 rrrr ssss tttt`; 2.1. -/
theorem test_decode_store : decode 0b0011001101000000 = .instr (.store 3 4 0) := by decide
/-- R113 `0100 rrrr ssss tttt`; 2.1. -/
theorem test_decode_move : decode 0b0100010101000000 = .instr (.move 5 4 0) := by decide
/-- R120 `0101 rrrr ssss tttt`; 2.1. -/
theorem test_decode_add : decode 0b0101001000000001 = .instr (.add 2 0 1) := by decide
/-- R130 `1011 rrrr ssss tttt`; 2.1. -/
theorem test_decode_jump : decode 0b1011000000100000 = .instr (.jump 0 2 0) := by decide
/-- R131 `1100 rrrr ssss tttt`; 2.1. -/
theorem test_decode_halt : decode 0b1100000100100011 = .instr (.halt 1 2 3) := by decide
/-- 2.1: 0xFFFF is invalid. -/
theorem test_decode_invalid : decode 0xFFFF = .invalidOpcode ⟨15, 15, 15, 15⟩ := by decide
/-- 2.1: encode_word(0x1, 15, 0xF, 0xF) = 0x1FFF and encode_word(0xB, 0, 2, 0) = 0xB020. -/
theorem test_encode_word : encodeWord 0x1 15 0xF 0xF = 0x1FFF ∧ encodeWord 0xB 0 2 0 = 0xB020 := by decide
/-- 0x5201 is held as 0x52, 0x01 (R54), and one byte is no instruction (R78). -/
theorem test_decode_bytes :
    decodeBytes [0x52, 0x01, 0xC0] = .ok (.add 2 0 1, [0xC0]) ∧ decodeBytes [0x52] = .error .truncated ∧
      decodeTableWord 16 0x5201 = some (.add 2 0 1) ∧ decodeTableWord 16 0x9000 = none := by decide

/-! ### The instructions (95_test_vectors.md sections 2.3 to 2.10) -/

/-- 2.3: mem[0x40] = -7, 0x1440 gives x[4] = -7. -/
theorem test_load1_negative :
    (stepWord 0x1440 (State.reset.memWrite 0x40 (-7))).map (fun t => ((t.reg 4).toInt, t.pc)) = some (-7, 0x0C) := by
  decide
/-- 2.3: 0x140A at 0x0A loads its own high byte. -/
theorem test_load1_own_byte : (stepWord 0x140A State.reset).map (fun t => (t.reg 4).toInt) = some 20 := by decide
/-- 2.4: 0x2FFF gives 255, not -1. -/
theorem test_load2_zero_extends :
    (stepWord 0x2FFF (State.reset.setReg 15 (-9))).map (fun t => (t.reg 15).toInt) = some 255 := by decide
/-- 2.4: x[3] = 44, 0x2300 gives x[3] = 0. -/
theorem test_load2_zero : (stepWord 0x2300 (State.reset.setReg 3 44)).map (fun t => (t.reg 3).toInt) = some 0 := by
  decide
/-- 2.5: x[2] = 448, 0x3214 gives mem[0x14] = 448. -/
theorem test_store_whole_word :
    (stepWord 0x3214 (State.reset.setReg 2 448)).map (fun t => (t.memRead 0x14).toInt) = some 448 := by decide
/-- 2.5: 0x390A at 0x0A stores into its own high byte; the step itself is unaffected. -/
theorem test_store_own_byte :
    (stepWord 0x390A (State.reset.setReg 9 0x55)).map (fun t => (t.memRead 0x0A, t.pc)) = some (0x55, 0x0C) := by
  decide
/-- 2.6: x[1] = 2, x[2] = 9, 0x412F gives x[1] = 9. -/
theorem test_move_ignores_t :
    (stepWord 0x412F ((State.reset.setReg 1 2).setReg 2 9)).map (fun t => (t.reg 1, t.reg 2)) = some (9, 9) := by decide
/-- 2.7, a wrap vector: 2147483647 + 1 = -2147483648. -/
theorem test_add_wraps :
    (stepWord 0x5201 ((State.reset.setReg 0 2147483647).setReg 1 1)).map (fun t => (t.reg 2).toInt) =
      some (-2147483648) := by decide
/-- 2.7: x[3] = 6, 0x5333 (R = S = T) gives 12. -/
theorem test_add_aliased : (stepWord 0x5333 (State.reset.setReg 3 6)).map (fun t => (t.reg 3).toInt) = some 12 := by
  decide
/-- 2.7: the wrap vectors under `saturate` give 2147483647, -2147483648 and 2147483647. -/
theorem test_add_saturates :
    (addUnder .saturate 2147483647 1).toInt = 2147483647 ∧
      (addUnder .saturate (-2147483648) (-2147483648)).toInt = -2147483648 ∧
      (addUnder .saturate 2147483647 2147483647).toInt = 2147483647 := by decide
/-- 2.8: 0xB00F at 0x0A gives the odd pc 0x0F. -/
theorem test_jump_odd : (stepWord 0xB00F State.reset).map (fun t => t.pc) = some 0x0F := by decide
/-- 2.8: 0xB7FE gives 0xFE; R = 7 is ignored. -/
theorem test_jump_ignores_r : (stepWord 0xB7FE State.reset).map (fun t => t.pc) = some 0xFE := by decide
/-- 2.9: 0xC123 at 0x10 halts with pc = 0x12. -/
theorem test_halt_ignores_fields :
    (stepWord 0xC123 (State.reset.setPc 0x10)).map (fun t => (t.halt, t.pcFault, t.pc, t.haltCause)) =
      some (true, false, 0x12, .halt) := by decide
/-- 2.10: 0x9123 at 0x0A is reported and passed over. -/
theorem test_invalid_opcode :
    (stepWord 0x9123 State.reset).map (fun t => (t.pc, t.halted)) = some (0x0C, false) ∧
      diagnostic (State.reset.placeWord 0x9123) = .invalidOpcode 0x9 0x0A 0x9123 := by decide

/-! ### Fetch, load, ports and assembly -/

/-- 2.2: a fetch at 0xFE leaves pc = 256. -/
theorem test_last_fetch :
    (stepWord 0x2001 (State.reset.setPc 0xFE)).map (fun t => (t.reg 0, t.pc)) = some (1, 256) := by decide
/-- 2.2: mem[0x14] = 448 and mem[0x15] = 5 are fetched as 0xC005, and under `fault` report FetchCellNotByte. -/
theorem test_fetch_of_non_byte :
    let s := ((State.reset.memWrite 0x14 448).memWrite 0x15 5).setPc 0x14
    fetchUnder .truncate8 s = .word 0xC005 ∧ diagnosticUnder .fault s = .fetchCellNotByte 0x14 := by decide
/-- 2.2: mem[0x20] = -1 is fetched as 0xFF. -/
theorem test_fetch_of_minus_one :
    fetchUnder .truncate8 ((State.reset.memWrite 0x20 (-1)).setPc 0x20) = .word 0xFF00 := by decide
/-- 2.11: words [0x1234, 0xABCD] fill cells 0 to 3. -/
theorem test_load_words :
    (loadWords [0x1234, 0xABCD] State.reset).2 = 4 ∧
      (loadWords [0x1234, 0xABCD] State.reset).1.mem = [(0, 0x12), (1, 0x34), (2, 0xAB), (3, 0xCD)] := by decide
/-- 2.11: of 300 bytes, 256 are counted. -/
theorem test_load_stops : (loadBytes (List.replicate 300 0) State.reset).2 = 256 := by
  change min (List.replicate 300 (0 : Byte)).length 256 = 256
  rw [List.length_replicate]
  decide
/-- D13: after HALT `halt_cause` is 1 and after a PC-range failure 2. -/
theorem test_port_halt_cause :
    portHaltCause ⟨State.reset.setHalt, true, .nothing⟩ = 1 ∧
      portHaltCause ⟨State.reset.setPcFault, true, .programCounterOutOfRange 255⟩ = 2 := by decide
/-- R80: the texts of the section 2.1 words. -/
theorem test_disassembly_texts :
    (disassemble 0x1440).text = "LOAD1 R4, [0x40]" ∧ (disassemble 0x454F).text = "MOVE R4 -> R5" ∧
      (disassemble 0x5201).text = "ADD R0, R1 -> R2" ∧ (disassemble 0xFFFF).text = ".word 0xFFFF" := by decide
/-- R80, program P3: `.org 0x0A`, then JUMP 0x20, fills cells 0x0A and 0x0B. -/
theorem test_layout : layout 0 [.org 0x0A, .instr (.jump 0x20), .byte 0x21] =
    some [(0x0A, 0xB0), (0x0B, 0x20), (0x0C, 0x21)] := by decide
/-- Table words: placed at the reset PC, 0x2107 runs as LOAD2 R1, 0x07. -/
theorem test_with_fetch_word :
    fetchUnder .truncate8 (State.reset.withFetchWord 16 0x2107) = .word 0x2107 := by decide

/-! ### Witnesses: for each statement with hypotheses, a case that meets them all -/

theorem witness_DecodeOfEncodeIsTheInstruction : (Instr.halt 15 15 15).wellFormed = true := by decide
theorem witness_EncodeWordAndDecodeAreInverse : decode 0x454F = .instr (.move 5 4 15) := by decide
theorem witness_EveryInstructionTakesTwoCells : decodeBytes [0xC0, 0x00] = .ok (.halt 0 0 0, []) := by decide
theorem witness_AssemblyRoundTrips :
    (Asm.add 15 16 0).wellFormed = false ∧ (Asm.load1 15 255).wellFormed = true := by decide
theorem witness_LoadWritesTheBytesInOrder :
    State.reset.mem.wf = true ∧ (0 : Byte).toNat < [(7 : Byte)].length ∧ ¬(1 : Byte).toNat < [(7 : Byte)].length := by
  decide
theorem witness_LoadSplitsWordsHighByteFirst :
    State.reset.mem.wf = true ∧ 127 < (List.replicate 128 (0x1234 : InstrWord)).length ∧ 127 < 128 :=
  ⟨rfl, by rw [List.length_replicate]; decide, by decide⟩
theorem witness_FirstStepFetchesTheEntryPoint : 12 ≤ (List.replicate 12 (0xC0 : Byte)).length := by decide
theorem witness_FetchTakesTheHighByteFirst :
    let s := ((State.reset.memWrite 0xFE 255).memWrite 0xFF 0).setPc 254
    s.pc.toNat ≤ 254 ∧ (s.memRead (BitVec.ofNat 8 s.pc.toNat)).toInt = 255 ∧
      (s.memRead (BitVec.ofNat 8 (s.pc.toNat + 1))).toInt = 0 := by decide
theorem witness_FetchTruncatesEachCell : (State.reset.setPc 254).pc.toNat ≤ 254 := by decide
theorem witness_FaultPolicyHaltsOnACellThatIsNoByte :
    let s := (State.reset.memWrite 0xFE 256).setPc 254
    let s' := (State.reset.memWrite 0xFF (-1)).setPc 254
    s.halted = false ∧ s.pc.toNat ≤ 254 ∧ 255 < (s.memRead (BitVec.ofNat 8 s.pc.toNat)).toInt ∧
      s'.halted = false ∧ s'.pc.toNat ≤ 254 ∧ (s'.memRead (BitVec.ofNat 8 (s'.pc.toNat + 1))).toInt < 0 := by decide
theorem witness_PcRangeFailureHaltsAndChangesNothingElse :
    (State.reset.setPc 255).halted = false ∧ 255 ≤ (State.reset.setPc 255).pc.toNat ∧
      255 ≤ (State.reset.setPc 256).pc.toNat := by decide
theorem witness_HaltedEngineNeverChanges :
    State.reset.setHalt.halted = true ∧ State.reset.setPcFault.halted = true := by decide
theorem witness_InvalidOpcodeIsReportedAndPassedOver :
    let s := State.reset.placeWord 0xF000
    s.halted = false ∧ fetchUnder .fault s = .word 0xF000 ∧ fetchUnder .truncate8 s = .word 0xF000 ∧
      (0xF000 : InstrWord).toNat / 4096 ∈ [0x0, 0x6, 0x7, 0x8, 0x9, 0xA, 0xD, 0xE, 0xF] := by decide
theorem witness_StepRunsTheDecodedInstruction :
    let s := (State.reset.setPc 254).placeWord 0x5201
    s.halted = false ∧ s.pc.toNat ≤ 254 ∧ (Instr.add 2 0 1).wellFormed = true ∧
      decode (wordOfBytes (cellByte (s.memRead (BitVec.ofNat 8 s.pc.toNat)))
        (cellByte (s.memRead (BitVec.ofNat 8 (s.pc.toNat + 1))))) = .instr (.add 2 0 1) := by decide
theorem witness_EveryConditionIsPrecise :
    diagnosticUnder .truncate8 (State.reset.setPc 256) ≠ .nothing ∧
      diagnosticUnder .fault (State.reset.placeWord 0x0000) ≠ .nothing := by decide
/-- Each branch of the priority is reached: Halted, PC range, non-byte cell, invalid opcode, an instruction. -/
theorem witness_DiagnosticFollowsThePriority :
    diagnosticUnder .fault (State.reset.setPc 256).setHalt = .nothing ∧
      diagnosticUnder .fault (State.reset.setPc 255) = .programCounterOutOfRange 255 ∧
      diagnosticUnder .fault (State.reset.memWrite 0x0A 256) = .fetchCellNotByte 0x0A ∧
      diagnosticUnder .truncate8 (State.reset.memWrite 0x0A 256) = .invalidOpcode 0 0x0A 0 ∧
      diagnosticUnder .truncate8 (State.reset.placeWord 0xC000) = .nothing := by decide
theorem witness_StoreWritesTheCell :
    State.reset.mem.wf = true ∧ ((execInstr (.store 7 15 15) (State.reset.setReg 7 5)).map fun t => t.mem) =
      some [(255, 5)] := by decide
theorem witness_AddIsExactInsideTheRange :
    let s := (State.reset.setReg 0 2147483646).setReg 1 1
    let s' := (State.reset.setReg 0 (-2147483647)).setReg 1 (-1)
    (s.reg 0).toInt + (s.reg 1).toInt = 2147483647 ∧ (s'.reg 0).toInt + (s'.reg 1).toInt = -2147483648 := by decide
/-- Each branch of the clamp is reached. -/
theorem witness_SaturatingAddClampsTheSum :
    let s := (State.reset.setReg 0 2147483647).setReg 1 (-2147483648)
    2147483647 < (s.reg 0).toInt + (s.reg 0).toInt ∧ (s.reg 1).toInt + (s.reg 1).toInt < -2147483648 ∧
      (s.reg 0).toInt + (s.reg 1).toInt = -1 := by decide
theorem witness_RegisterUseFollowsTheTable :
    let s := State.reset.setReg 1 2
    let s' := (State.reset.setReg 1 2).setReg 3 9
    execInstr (.move 2 1 0) s = some (s.setReg 2 2) ∧ (3 : Nib) ∉ writesOf (.move 2 1 0) ∧
      execInstr (.move 2 1 0) s' = some (s'.setReg 2 2) ∧ s.mem = s'.mem ∧ s.pc = s'.pc ∧ s.halt = s'.halt ∧
      s.pcFault = s'.pcFault ∧ (∀ q ∈ readsOf (.move 2 1 0), s.reg q = s'.reg q) ∧
      (stepWord 0x4210 s).map (fun t => decide (t.regs ≠ (s.placeWord 0x4210).regs)) = some true := by decide
theorem witness_OnlyTheStoredCellChanges :
    State.reset.mem.wf = true ∧ (execInstr (.store 0 0 1) (State.reset.setReg 0 5)).isSome = true ∧
      storesTo (.store 0 0 1) ≠ some 2 := by decide
theorem witness_OnlyJumpWritesThePc :
    (execInstr (.jump 0 2 0) State.reset).map (fun t => decide (t.pc ≠ State.reset.pc)) = some true ∧
      (stepWord 0xB020 State.reset).map (fun t => decide (t.pc ≠ State.reset.pc ∧ t.pc ≠ State.reset.pc + 2)) =
        some true := by decide
theorem witness_OnlyHaltSetsTheHaltFlag : (stepWord 0xC000 State.reset).map (fun t => t.halt) = some true := by decide
theorem witness_OnlyFetchSetsPcFault :
    (stepWord 0xC000 (State.reset.setPc 255)).map (fun t => t.pcFault) = some true := by decide
/-- Both ways to end a run are reached, and a step that ends none. -/
theorem witness_RunEndsExactlyByHaltOrPcRange :
    State.reset.halted = false ∧ (stepWord 0xC000 State.reset).map (fun t => t.halted) = some true ∧
      (stepWord 0xC000 (State.reset.setPc 256)).map (fun t => t.halted) = some true ∧
      (stepWord 0x5000 State.reset).map (fun t => t.halted) = some false := by decide
theorem witness_RunIsSteppingUntilHalted :
    (run 1 (State.reset.placeWord 0xC000)).map (fun t => t.halted) = some true ∧
      run 0 (State.reset.placeWord 0xC000) = none := by decide
theorem witness_JumpToItselfRunsForever :
    let s := State.reset.placeWord 0xB00A
    s.pc.toNat ≤ 254 ∧ cycleUnder Config.fetchCellPolicy s = .run (.jump 0 0 10) ∧
      (pack8 0 10).toNat = s.pc.toNat := by decide
theorem witness_LoadReturnsTheStoredWord :
    let s := State.reset.setReg 2 (-1)
    let u := s.memWrite (pack8 1 4) (-1)
    s.mem.wf = true ∧ execInstr (.store 2 1 4) s = some u ∧
      (u.setPc 4).memRead (pack8 1 4) = u.memRead (pack8 1 4) := by decide
/-- The cell stored to is the high half of the next fetch, and the low half of it at the top of memory. -/
theorem witness_StoreIsSeenByTheNextFetch :
    let s := State.reset.setReg 2 448
    let u := s.memWrite (pack8 15 15) 448
    let u' := s.memWrite (pack8 15 14) 448
    s.mem.wf = true ∧ execInstr (.store 2 15 15) s = some u ∧ (u.setPc 254).pc.toNat ≤ 254 ∧
      (u.setPc 254).pc.toNat + 1 = (pack8 15 15).toNat ∧ execInstr (.store 2 15 14) s = some u' ∧
      (u'.setPc 254).pc.toNat = (pack8 15 14).toNat := by decide
theorem witness_StepKeepsInvariant :
    (State.reset.setPc 256).Inv ∧ (stepWord 0xC000 (State.reset.setPc 254)).isSome = true ∧
      (stepWord 0xC000 (State.reset.setPc 256)).isSome = true := by decide
theorem witness_CanonicalMemoriesThatReadAlikeAreEqual :
    Memory.wf [(0, 5), (255, 6)] = true ∧ Memory.write [(0, 5)] 255 6 = [(0, 5), (255, 6)] := by decide
theorem witness_RegisterInterfaceIsBoundsSafe :
    readRegister (State.reset.setReg 15 3) 15 = .ok 3 ∧
      readRegister State.reset 16 = .error (.addressOutOfRange .register 16) ∧
      readRegister State.reset (-1) = .error (.addressOutOfRange .register (-1)) := by decide
theorem witness_MemoryInterfaceIsBoundsSafe :
    State.reset.mem.wf = true ∧ readMemory (State.reset.memWrite 255 3) 255 = .ok 3 ∧
      readMemory State.reset 256 = .error (.addressOutOfRange .memory 256) ∧
      readMemory State.reset (-1) = .error (.addressOutOfRange .memory (-1)) := by decide
theorem witness_ObservationShowsRegistersAndFirstCells :
    (observe ((State.reset.memWrite 15 8).setReg 15 9)).cells[15] = 8 ∧
      (observe ((State.reset.memWrite 15 8).setReg 15 9)).regs[15] = 9 := by decide
theorem witness_PortLoadIsTheLoadOperation : (List.replicate 256 (0 : Byte)).length ≤ 256 := by
  rw [List.length_replicate]
/-- A step on an edge, before the first step and after it; an idle edge; a reset edge. -/
theorem witness_PortEdgeStepsTheCore :
    let i : PortsIn := ⟨false, false, 0, 0, true⟩
    let i' : PortsIn := ⟨false, true, 0, 0, true⟩
    i.rst = false ∧ i.stepEn = true ∧ i.ldEn = false ∧ i'.ldEn = true ∧
      (⟨State.reset, true, .nothing⟩ : Block).started = true ∧ (⟨true, true, 0, 0, true⟩ : PortsIn).rst = true ∧
      (⟨false, false, 0, 0, false⟩ : PortsIn).stepEn = false := by decide
/-- A load and a step on one edge before the first step; a load alone that counts, and one that does not. -/
theorem witness_NoLoadLandsAfterAStep :
    let both : PortsIn := ⟨false, true, 0x0A, 0xC0, true⟩
    let load : PortsIn := ⟨false, true, 0x0A, 0xC0, false⟩
    both.rst = false ∧ both.stepEn = true ∧ loadEnabled both Block.reset = true ∧ load.rst = false ∧
      load.stepEn = false ∧ loadEnabled load Block.reset = true ∧
      loadEnabled load ⟨State.reset, true, .nothing⟩ = false := by decide
/-- D13, R103: a load before the first step fills its cell, and the same load after it fills none. -/
theorem test_port_load_after_first_step :
    let load : PortsIn := ⟨false, true, 0x40, 0x7F, false⟩
    (portLoad load Block.reset).core.memRead 0x40 = 0x7F ∧
      (portLoad load ⟨State.reset, true, .nothing⟩).core.memRead 0x40 = 0 := by decide
theorem witness_OnlyConstructionLeavesHalted :
    (⟨false, true, 0, 1, true⟩ : PortsIn).rst = false ∧
      (⟨State.reset.setHalt, false, .nothing⟩ : Block).core.halted = true := by decide

end Sys2Proof.Tests
end

