-- ==== Sys2Proof/Proofs/Scope.lean ====
section
/-! PROOFS. The computation of `pack8` (00_scope.md R25). -/

namespace Sys2Proof.Machine

/-- Settles O2: `pack8` is the append of its two nibbles, and an append is a shift and an or of numbers. -/
theorem pack8IsShiftedHighNibbleOrLowNibble :
    Obligations.Pack8IsShiftedHighNibbleOrLowNibble := by
  intro s t
  constructor
  · rw [pack8_eq_append, BitVec.toNat_append]
  · exact Nat.le_of_lt_succ (pack8 s t).isLt

end Sys2Proof.Machine
end

section
/-! PROOFS. Which registers an instruction reads and writes (10_state.md R33), and what sets the HaltFlag (R36). -/

namespace Sys2Proof.Machine

/-- Everything a step can do, each outcome with the cycle that decides it. -/
theorem stepUnder_next_cases {p : FetchCellPolicy} {s t : State} (h : stepUnder p s = .next t) :
    (cycleUnder p s = .halted ∧ t = s) ∨
    ((cycleUnder p s = .pcOutOfRange s.pc ∨ cycleUnder p s = .cellNotByte s.pc) ∧ t = s.setPcFault) ∨
    (∃ op w, cycleUnder p s = .invalidOpcode op s.pc w ∧ t = s.advance) ∨
    (∃ i, cycleUnder p s = .run i ∧ t = effectOf i s.advance) := by
  rcases cycleUnder_cases p s with ⟨-, hc⟩ | ⟨-, -, hc⟩ | ⟨-, -, hc⟩ | ⟨w, f, -, -, -, hc⟩ |
    ⟨w, i, -, -, -, hc⟩ <;>
    simp only [stepUnder, hc] at h
  · exact .inl ⟨hc, (Host.Outcome.next.inj h).symm⟩
  · exact .inr (.inl ⟨.inl hc, (Host.Outcome.next.inj h).symm⟩)
  · exact .inr (.inl ⟨.inr hc, (Host.Outcome.next.inj h).symm⟩)
  · exact .inr (.inr (.inl ⟨f.op, w, hc, (Host.Outcome.next.inj h).symm⟩))
  · exact .inr (.inr (.inr ⟨i, hc, effectOf_of_exec h⟩))

/-- A memory read depends on the memory alone. -/
theorem State.memRead_congr {s s' : State} (h : s.mem = s'.mem) (a : Byte) : s.memRead a = s'.memRead a := by
  simp only [State.memRead, h]

/-! ### What each part of the next state depends on -/

/-- The write frame of the registers. -/
theorem effectOf_reg_of_notMem {i : Instr} {q : Nib} (hq : q ∉ writesOf i) (s : State) :
    (effectOf i s).reg q = s.reg q := by
  cases i with
  | load1 r _ _ | load2 r _ _ | move r _ _ | add r _ _ =>
    exact State.reg_setReg_of_ne s _ (List.ne_of_not_mem_cons hq).symm
  | store _ _ _ | jump _ _ _ | halt _ _ _ => rfl

theorem effectOf_regs_of_writesOf_eq_nil {i : Instr} (hi : writesOf i = []) (s : State) :
    (effectOf i s).regs = s.regs :=
  State.regs_ext fun q => effectOf_reg_of_notMem (by simp [hi]) s

/-- What is written to a register comes from the memory and the registers read. -/
theorem effectOf_reg_congr {i : Instr} {s s' : State} (hmem : s.mem = s'.mem)
    (hreads : ∀ q ∈ readsOf i, s.reg q = s'.reg q) :
    ∀ q ∈ writesOf i, (effectOf i s).reg q = (effectOf i s').reg q := by
  cases i with
  | load1 r a b => simp [writesOf, effectOf, State.memRead_congr hmem]
  | load2 r a b => simp [writesOf, effectOf]
  | move r a _ =>
    have ha : s.reg a = s'.reg a := hreads a (List.mem_singleton_self a)
    simp [writesOf, effectOf, ha]
  | add r a b =>
    have hab : s.reg a = s'.reg a ∧ s.reg b = s'.reg b := by simpa [readsOf] using hreads
    simp [writesOf, effectOf, hab]
  | store _ _ _ | jump _ _ _ | halt _ _ _ => simp [writesOf]

/-- What is stored comes from a register read. -/
theorem effectOf_mem_congr {i : Instr} {s s' : State} (hmem : s.mem = s'.mem)
    (hreads : ∀ q ∈ readsOf i, s.reg q = s'.reg q) : (effectOf i s).mem = (effectOf i s').mem := by
  cases i with
  | store r a b =>
    have hr : s.reg r = s'.reg r := hreads r (List.mem_singleton_self r)
    simp only [effectOf, State.memWrite_mem, hmem, hr]
  | load1 _ _ _ | load2 _ _ _ | move _ _ _ | add _ _ _ | jump _ _ _ | halt _ _ _ => exact hmem

theorem effectOf_pc_congr (i : Instr) {s s' : State} (hpc : s.pc = s'.pc) :
    (effectOf i s).pc = (effectOf i s').pc := by
  cases i with
  | jump _ _ _ => rfl
  | load1 _ _ _ | load2 _ _ _ | store _ _ _ | move _ _ _ | add _ _ _ | halt _ _ _ => exact hpc

/-- HALT alone sets the HaltFlag, and no instruction clears it. -/
@[simp] theorem effectOf_halt (i : Instr) (s : State) : (effectOf i s).halt = (s.halt || isHalt i) := by
  cases i with
  | halt _ _ _ => exact (Bool.or_true _).symm
  | load1 _ _ _ | load2 _ _ _ | store _ _ _ | move _ _ _ | add _ _ _ | jump _ _ _ => exact (Bool.or_false _).symm

@[simp] theorem effectOf_pcFault (i : Instr) (s : State) : (effectOf i s).pcFault = s.pcFault := by
  cases i <;> rfl

/-! ### The register file and the HaltFlag across a step -/

/-- Only an instruction that writes a register changes the register file. -/
theorem stepUnder_regs_changed {p : FetchCellPolicy} {s t : State} (h : stepUnder p s = .next t)
    (hne : t.regs ≠ s.regs) : ∃ i, cycleUnder p s = .run i ∧ writesOf i ≠ [] := by
  rcases stepUnder_next_cases h with ⟨-, rfl⟩ | ⟨-, rfl⟩ | ⟨-, -, -, rfl⟩ | ⟨i, hc, rfl⟩
  · exact absurd rfl hne
  · exact absurd s.setPcFault_regs hne
  · exact absurd s.advance_regs hne
  · exact ⟨i, hc, fun hi => hne (effectOf_regs_of_writesOf_eq_nil hi s.advance)⟩

/-- Settles O36: each part of the next state is followed back to what it depends on. -/
theorem registerUseFollowsTheTable : Obligations.RegisterUseFollowsTheTable := by
  refine ⟨?_, ?_, fun _ _ _ => stepUnder_regs_changed, fun _ _ => rfl⟩
  · intro i st u h q hq
    rw [effectOf_of_exec h]
    exact effectOf_reg_of_notMem hq st
  · intro i st st' u u' hmem hpc hhalt hfault hreads h h'
    rw [effectOf_of_exec h, effectOf_of_exec h']
    exact ⟨effectOf_mem_congr hmem hreads, effectOf_pc_congr i hpc, by simp [hhalt], by simp [hfault],
      effectOf_reg_congr hmem hreads⟩

/-- A step that runs an instruction ends the run by HALT exactly when the instruction is one. -/
theorem endsByHalt_of_run {p : FetchCellPolicy} {s : State} {i : Instr} (hc : cycleUnder p s = .run i) :
    endsByHalt p s ↔ isHalt i = true := by
  simp [endsByHalt, hc]

/-- Settles O39: of what a step can do, only running an instruction touches the HaltFlag. -/
theorem onlyHaltSetsTheHaltFlag : Obligations.OnlyHaltSetsTheHaltFlag := by
  refine ⟨rfl, fun p s t h => ?_⟩
  rcases stepUnder_next_cases h with ⟨hc, rfl⟩ | ⟨hc | hc, rfl⟩ | ⟨op, w, hc, rfl⟩ | ⟨i, hc, rfl⟩
  · simp [endsByHalt, hc]
  · simp [endsByHalt, hc]
  · simp [endsByHalt, hc]
  · simp [endsByHalt, hc]
  · rw [endsByHalt_of_run hc, effectOf_halt, State.advance_halt, Bool.or_eq_true]

end Sys2Proof.Machine
end

section
/-! PROOFS. What a fetch reads from memory, and what a LOAD1 reads back (20_memory.md R52, R54, R55). -/

namespace Sys2Proof.Machine

/-! ### The two cells of a fetch and the word they make -/

theorem cellOfPc_eq_ofNat (pc : Pc) : cellOfPc pc = BitVec.ofNat 8 pc.toNat := by
  rw [BitVec.ofNat_toNat, cellOfPc]

/-- The second cell of a fetch inside the range (20_memory.md R54). -/
theorem cellOfPc_add_one {pc : Pc} (h : pc.toNat ≤ 254) : cellOfPc (pc + 1) = BitVec.ofNat 8 (pc.toNat + 1) := by
  rw [cellOfPc_eq_ofNat, BitVec.toNat_add_of_lt]
  · rfl
  · exact Nat.lt_of_le_of_lt (Nat.add_le_add_right h 1) (by decide)

theorem wordOfBytes_toNat (hi lo : Byte) : (wordOfBytes hi lo).toNat = 256 * hi.toNat + lo.toNat := by
  rw [wordOfBytes, BitVec.toNat_append, ← Nat.shiftLeft_add_eq_or_of_lt lo.isLt, Nat.shiftLeft_eq, Nat.mul_comm]

theorem isByteCell_iff {c : Word} : isByteCell c = true ↔ 0 ≤ c.toInt ∧ c.toInt ≤ 255 :=
  decide_eq_true_iff

/-- The low byte of a byte cell is the value the cell holds (20_memory.md R55). -/
theorem cellByte_toNat_of_isByteCell {c : Word} (h : isByteCell c = true) : ((cellByte c).toNat : Int) = c.toInt := by
  obtain ⟨hlo, hhi⟩ := isByteCell_iff.mp h
  rw [cellByte, BitVec.toNat_setWidth]
  rw [BitVec.toInt_eq_toNat_cond] at hlo hhi ⊢
  omega

/-- Settles O15: both cells give their value as a byte under either policy, and the word is the first followed by
the second. -/
theorem fetchTakesTheHighByteFirst : Obligations.FetchTakesTheHighByteFirst := by
  intro p s hpc hi lo hhi0 hhi lo0 hlo
  have hhiByte : isByteCell hi = true := isByteCell_iff.mpr ⟨hhi0, hhi⟩
  have hloByte : isByteCell lo = true := isByteCell_iff.mpr ⟨lo0, hlo⟩
  refine ⟨wordOfBytes (cellByte hi) (cellByte lo), fetchUnder_of_bytes ((pc_inRange_iff s.pc).mpr hpc) ?_ ?_, ?_⟩
  · rw [cellOfPc_eq_ofNat]
    exact fetchByte_of_isByteCell p hhiByte
  · rw [cellOfPc_add_one hpc]
    exact fetchByte_of_isByteCell p hloByte
  · rw [wordOfBytes_toNat, ← cellByte_toNat_of_isByteCell hhiByte, ← cellByte_toNat_of_isByteCell hloByte]
    norm_cast

/-! ### A STORE and a later LOAD1 of its cell -/

/-- After a STORE its cell holds the Word of the register (20_memory.md R52). -/
theorem memRead_of_exec_store {r a b : Nib} {s t : State} (hwf : s.mem.wf = true)
    (h : exec (.store r a b) s = .next t) : t.memRead (pack8 a b) = s.reg r := by
  rw [effectOf_of_exec h, effectOf, State.memRead_memWrite hwf, if_pos rfl]

/-- Settles O44: a LOAD1 sets its register to the cell, which holds what the STORE wrote. -/
theorem loadReturnsTheStoredWord : Obligations.LoadReturnsTheStoredWord := by
  intro r r' a b st u v hwf hstore hcell
  refine ⟨_, exec_eq_next (.load1 r' a b) v, ?_⟩
  calc (effectOf (.load1 r' a b) v).reg r' = v.memRead (pack8 a b) := State.reg_setReg_same v r' _
    _ = u.memRead (pack8 a b) := hcell
    _ = st.reg r := memRead_of_exec_store hwf hstore

end Sys2Proof.Machine
end

section
/-! PROOFS. The fields of every word, the opcode map, and decoding from bytes (30_encoding.md R70, R73, R76, R78). -/

namespace Sys2Proof

/-! ### The fields as numbers -/

theorem extractNib_toNat (w : InstrWord) (k : Nat) : (w.extractLsb' k 4).toNat = w.toNat / 2 ^ k % 16 := by
  rw [BitVec.extractLsb'_toNat, Nat.shiftRight_eq_div_pow]

/-- Settles O3: each field is four bits of the word, and above the four bits of the opcode there are none. -/
theorem everyWordSplitsIntoFourNibbles : Obligations.EveryWordSplitsIntoFourNibbles := by
  intro w
  have op_toNat : (decodeFields w).op.toNat = w.toNat / 4096 :=
    calc (decodeFields w).op.toNat = w.toNat / 4096 % 16 := extractNib_toNat w 12
      _ = w.toNat / 4096 := Nat.mod_eq_of_lt (Nat.div_lt_of_lt_mul w.isLt)
  have t_toNat : (decodeFields w).t.toNat = w.toNat % 16 :=
    calc (decodeFields w).t.toNat = w.toNat / 1 % 16 := extractNib_toNat w 0
      _ = w.toNat % 16 := by rw [Nat.div_one]
  exact ⟨op_toNat, extractNib_toNat w 8, extractNib_toNat w 4, t_toNat⟩

/-! ### The opcode map by match and mask -/

/-- The mask of R73 keeps the opcode in its place and clears R, S and T. -/
theorem and_opcodeMask (w : InstrWord) : w &&& 0xF000 = (decodeFields w).op ++ 0#12 :=
  calc w &&& 0xF000
    _ = (w.extractLsb' 12 4 ++ w.extractLsb' 0 12) &&& (BitVec.allOnes 4 ++ 0#12) := by
        rw [BitVec.extractLsb'_append_extractLsb']
        rfl
    _ = (decodeFields w).op ++ 0#12 := by
        rw [BitVec.and_append, BitVec.and_allOnes, BitVec.and_zero, decodeFields]

/-- A word matches under the mask exactly when its opcode is the one matched. -/
theorem and_opcodeMask_eq_iff (w : InstrWord) (op : Nib) :
    w &&& 0xF000 = op ++ 0#12 ↔ (decodeFields w).op = op := by
  rw [and_opcodeMask, BitVec.append_left_inj]

/-- Settles O4: each match of the statement is an opcode above twelve zeros, and so tests the opcode that
`selectInstr` tests in its place. -/
theorem opcodeAloneSelectsTheInstruction : Obligations.OpcodeAloneSelectsTheInstruction := by
  intro w
  simp only [decode, selectInstr, ← and_opcodeMask_eq_iff]
  rfl

/-! ### Decoding from bytes -/

theorem decodeBytes_cons_cons_eq_ok {hi lo : Byte} {tail rest : List Byte} {i : Instr} :
    decodeBytes (hi :: lo :: tail) = .ok (i, rest) ↔ decode (wordOfBytes hi lo) = .instr i ∧ tail = rest := by
  cases hd : decode (wordOfBytes hi lo) with
  | instr j => simp [decodeBytes, hd]
  | invalidOpcode f => simp [decodeBytes, hd]

/-- Settles O7: of the lists of bytes only those with two at the front can decode, and the word of the two decides. -/
theorem everyInstructionTakesTwoCells : Obligations.EveryInstructionTakesTwoCells := by
  intro bs rest i
  match bs with
  | [] => simp [decodeBytes]
  | [_] => simp [decodeBytes]
  | hi :: lo :: tail =>
    rw [decodeBytes_cons_cons_eq_ok]
    constructor
    · rintro ⟨hd, rfl⟩
      exact ⟨hi, lo, rfl, hd⟩
    · rintro ⟨_, _, ⟨⟩, hd⟩
      exact ⟨hd, rfl⟩

end Sys2Proof
end

section
/-! PROOFS. The step on a word whose opcode names no instruction (40_engine_cycle.md R96). -/

namespace Sys2Proof

/-- The invalid opcodes are the nine that R96 lists. -/
theorem definedOpcode_eq_false_iff (op : Nib) :
    definedOpcode op = false ↔ op.toNat ∈ [0x0, 0x6, 0x7, 0x8, 0x9, 0xA, 0xD, 0xE, 0xF] := by
  revert op
  decide

theorem Instr.fields_wellFormed (i : Instr) : i.fields.wellFormed = true := by
  cases i <;> rfl

/-- A word whose fields are not well formed decodes to no instruction, whose fields would be (30_encoding.md R77). -/
theorem decode_of_not_wellFormed {w : InstrWord} (h : (decodeFields w).wellFormed = false) :
    decode w = .invalidOpcode (decodeFields w) := by
  cases hd : decode w with
  | instr i =>
    have hi : i.fields = decodeFields w := fields_of_selectInstr hd
    rw [← hi, i.fields_wellFormed] at h
    contradiction
  | invalidOpcode f =>
    obtain ⟨rfl, -⟩ := invalid_of_selectInstr hd
    rfl

theorem decodeFields_op_toNat (w : InstrWord) : (decodeFields w).op.toNat = w.toNat / 4096 :=
  (everyWordSplitsIntoFourNibbles w).1

end Sys2Proof

namespace Sys2Proof.Machine

/-- Where the fetch passed the range check, the PC advance does not wrap (40_engine_cycle.md R93). -/
theorem State.advance_pc_toNat {s : State} (h : s.pc.toNat ≤ 254) : s.advance.pc.toNat = s.pc.toNat + 2 :=
  BitVec.toNat_add_of_lt (Nat.lt_of_le_of_lt (Nat.add_le_add_right h 2) (by decide))

theorem cycleUnder_of_invalidOpcode {p : FetchCellPolicy} {s : State} {w : InstrWord} {f : Fields}
    (hrun : s.halted = false) (hfetch : fetchUnder p s = .word w) (hdec : decode w = .invalidOpcode f) :
    cycleUnder p s = .invalidOpcode f.op s.pc w := by
  simp [cycleUnder, hrun, hfetch, hdec]

/-- Settles O20: the word decodes to no instruction, so the step is the PC advance alone, which keeps all else. -/
theorem invalidOpcodeIsReportedAndPassedOver : Obligations.InvalidOpcodeIsReportedAndPassedOver := by
  intro p s w hrun hfetch hop
  rw [← decodeFields_op_toNat w] at hop ⊢
  have hdec : decode w = .invalidOpcode (decodeFields w) :=
    decode_of_not_wellFormed ((definedOpcode_eq_false_iff _).mpr hop)
  have hcycle : cycleUnder p s = .invalidOpcode (decodeFields w).op s.pc w :=
    cycleUnder_of_invalidOpcode hrun hfetch hdec
  have hpc : s.pc.toNat ≤ 254 := (pc_inRange_iff s.pc).mp (pc_lt_of_fetchUnder_word hfetch)
  refine ⟨s.advance, ?_, s.advance_pc_toNat hpc, s.reg_advance, s.memRead_advance, s.advance_halt,
    s.advance_pcFault, ?_⟩
  · rw [stepUnder, hcycle, execInvalidOpcode]
  · rw [diagnosticUnder, hcycle, BitVec.ofNat_toNat, BitVec.setWidth_eq]

end Sys2Proof.Machine
end

section
/-! PROOFS. LOAD1, LOAD2 and STORE: the destination and the frame (41_data_movement.md R110 to R112). -/

namespace Sys2Proof

/-- The decoder reads an instruction's fields back from its word, and the opcode map selects the instruction
(30_encoding.md R73, R79). -/
theorem decode_encode (i : Instr) : decode (encode i) = .instr i := by
  have hfields : decodeFields (encode i) = i.fields := Laws.FieldsOfEncode.of_fields i
  rw [decode, hfields, selectInstr_fields]

end Sys2Proof

namespace Sys2Proof.Machine

/-- The frame of a register write (10_state.md R31). -/
theorem State.setReg_frame (s : State) (r : Nib) (v : Word) :
    (∀ q, q ≠ r → (s.setReg r v).reg q = s.reg q) ∧ (∀ a, (s.setReg r v).memRead a = s.memRead a) ∧
    (s.setReg r v).pc = s.pc ∧ (s.setReg r v).halt = s.halt ∧ (s.setReg r v).pcFault = s.pcFault :=
  ⟨fun _ hq => s.reg_setReg_of_ne v hq.symm, s.memRead_setReg r v, s.setReg_pc r v, s.setReg_halt r v,
    s.setReg_pcFault r v⟩

/-- The frame of a memory write (20_memory.md R51). -/
theorem State.memWrite_frame {s : State} (hwf : s.mem.wf = true) (c : Byte) (v : Word) :
    (∀ a, a ≠ c → (s.memWrite c v).memRead a = s.memRead a) ∧ (∀ q, (s.memWrite c v).reg q = s.reg q) ∧
    (s.memWrite c v).pc = s.pc ∧ (s.memWrite c v).halt = s.halt ∧ (s.memWrite c v).pcFault = s.pcFault := by
  refine ⟨fun a ha => ?_, s.reg_memWrite c v, s.memWrite_pc c v, s.memWrite_halt c v, s.memWrite_pcFault c v⟩
  rw [State.memRead_memWrite hwf, if_neg ha.symm]

/-- The immediate is zero-extended (41_data_movement.md R111). -/
theorem zextByte_pack8_toInt (s t : Nib) :
    (zextByte (pack8 s t)).toInt = 16 * (s.toNat : Int) + (t.toNat : Int) := by
  rw [zextByte_toInt, pack8_toNat]
  norm_cast

/-- Settles O25: the effect is one register write, of the Word that the cell holds. -/
theorem load1LoadsTheCell : Obligations.Load1LoadsTheCell := by
  intro r s t st
  exact ⟨decode_encode (.load1 r s t), _, exec_eq_next (.load1 r s t) st, st.reg_setReg_same r _,
    st.setReg_frame r _⟩

/-- Settles O26: the effect is one register write, of the zero-extended immediate. -/
theorem load2LoadsTheImmediate : Obligations.Load2LoadsTheImmediate := by
  intro r s t st
  refine ⟨decode_encode (.load2 r s t), _, exec_eq_next (.load2 r s t) st, ?_, st.setReg_frame r _⟩
  rw [effectOf, State.reg_setReg_same, zextByte_pack8_toInt]

/-- Settles O27: the effect is one memory write, of the register's Word. -/
theorem storeWritesTheCell : Obligations.StoreWritesTheCell := by
  intro r s t st hwf
  have hexec := exec_eq_next (.store r s t) st
  exact ⟨decode_encode (.store r s t), _, hexec, memRead_of_exec_store hwf hexec,
    State.memWrite_frame hwf (pack8 s t) (st.reg r)⟩

end Sys2Proof.Machine
end

section
/-! PROOFS. What writes the PC other than by the fetch advance (43_control.md R130, R132). -/

namespace Sys2Proof.Machine

/-- The PC holds the target of a JUMP unchanged (43_control.md R130). -/
theorem effectOf_jump_pc_toNat (r a b : Nib) (s : State) :
    (effectOf (.jump r a b) s).pc.toNat = (pack8 a b).toNat :=
  BitVec.toNat_setWidth_of_le (by decide)

/-- An instruction that changes the PC is a JUMP. -/
theorem eq_jump_of_effectOf_pc_ne {i : Instr} {s : State} (h : (effectOf i s).pc ≠ s.pc) :
    ∃ r a b, i = .jump r a b := by
  cases i with
  | jump r a b => exact ⟨r, a, b, rfl⟩
  | load1 _ _ _ | load2 _ _ _ | store _ _ _ | move _ _ _ | add _ _ _ | halt _ _ _ => exact absurd rfl h

/-- Settles O38: of what a step can do, only running an instruction leaves the PC elsewhere than in place or
advanced, and that instruction changes the advanced PC. -/
theorem onlyJumpWritesThePc : Obligations.OnlyJumpWritesThePc := by
  constructor
  · intro i st u h hne
    rw [effectOf_of_exec h] at hne
    exact eq_jump_of_effectOf_pc_ne hne
  · intro p st u h hne hadv
    rcases stepUnder_next_cases h with ⟨-, rfl⟩ | ⟨-, rfl⟩ | ⟨-, -, -, rfl⟩ | ⟨i, hc, rfl⟩
    · exact absurd rfl hne
    · exact absurd st.setPcFault_pc hne
    · exact absurd st.advance_pc hadv
    · obtain ⟨r, a, b, rfl⟩ := eq_jump_of_effectOf_pc_ne hadv
      exact ⟨r, a, b, hc, effectOf_jump_pc_toNat r a b st.advance⟩

end Sys2Proof.Machine
end

section
/-! PROOFS. What a load leaves in the cells, and the first fetch after it (70_reset_and_hazards.md R162, R163). -/

namespace Sys2Proof.Machine

/-- The bytes of a load go to cell `a` and upward (40_engine_cycle.md R99): a cell below is left unchanged. -/
theorem loadFrom_read_below (bs : List Byte) {a c : Nat} {m : Memory} (hm : m.wf = true) (h : c < a) :
    (loadFrom a bs m).read c = m.read c := by
  induction bs generalizing a m with
  | nil => rfl
  | cons b bs ih =>
    rw [loadFrom]
    split_ifs with ha
    · rw [ih (Memory.wf_write hm ha _) (Nat.lt_succ_of_lt h), Memory.read_write hm, if_neg h.ne']
    · rfl

/-- Each byte of a load that has a cell is in it (R99): byte `k` is in cell `a + k`, where later bytes leave it. -/
theorem loadFrom_read_add {bs : List Byte} {a k : Nat} {m : Memory} (hm : m.wf = true) (hk : k < bs.length)
    (hcell : a + k < 256) : (loadFrom a bs m).read (a + k) = zextByte bs[k] := by
  induction bs generalizing a k m with
  | nil => exact absurd hk (Nat.not_lt_zero k)
  | cons b bs ih =>
    have ha : a < 256 := Nat.lt_of_le_of_lt (Nat.le_add_right a k) hcell
    have hm' : (m.write a (zextByte b)).wf = true := Memory.wf_write hm ha _
    rw [loadFrom, if_pos ha]
    cases k with
    | zero =>
      calc (loadFrom (a + 1) bs (m.write a (zextByte b))).read a
          = (m.write a (zextByte b)).read a := loadFrom_read_below bs hm' (Nat.lt_succ_self a)
        _ = zextByte b := by rw [Memory.read_write hm, if_pos rfl]
    | succ k =>
      have hadd : a + 1 + k = a + (k + 1) := Nat.succ_add_eq_add_succ a k
      rw [← hadd] at hcell ⊢
      exact ih hm' (Nat.lt_of_succ_lt_succ hk) hcell

/-- A cell the image reaches holds the image's byte after construct and load. -/
theorem boot_memRead {bs : List Byte} {c : Byte} (h : c.toNat < bs.length) :
    (boot bs).memRead c = zextByte bs[c.toNat] := by
  have hread := loadFrom_read_add (a := 0) State.reset_wf h (by rw [Nat.zero_add]; exact c.isLt)
  rwa [Nat.zero_add] at hread

/-- Settles O14: a load leaves the PC and the flags at their reset values, and the two cells at the entry point hold
loaded bytes, which are fetched as they are under either policy. -/
theorem firstStepFetchesTheEntryPoint : Obligations.FirstStepFetchesTheEntryPoint := by
  intro p bs h
  have hhi : (boot bs).memRead 0x0A = zextByte bs[10] := boot_memRead (c := 0x0A) (Nat.lt_of_lt_of_le (by decide) h)
  have hlo : (boot bs).memRead 0x0B = zextByte bs[11] := boot_memRead (c := 0x0B) h
  refine ⟨rfl, rfl, hhi, hlo, fetchUnder_of_bytes (show ¬255 ≤ (0x0A : Pc) by decide) ?_ ?_⟩
  · exact (congrArg (fetchByte p) hhi).trans (fetchByte_zextByte p bs[10])
  · exact (congrArg (fetchByte p) hlo).trans (fetchByte_zextByte p bs[11])

end Sys2Proof.Machine
end

section
/-! PROOFS. Encoding and decoding are inverse, and so are assembly and disassembly (30_encoding.md sections 6
and 7). -/

namespace Sys2Proof

/-- Settles O5: every instruction is decoded from its word, and well-formedness asks nothing
(`Instr.fields_wellFormed`). -/
theorem decodeOfEncodeIsTheInstruction : Obligations.DecodeOfEncodeIsTheInstruction :=
  fun i _ => decode_encode i

/-- Settles O1, by evaluating the decoder on each word of the table. -/
theorem listedWordsDecodeAsListed : Obligations.ListedWordsDecodeAsListed := by
  unfold Obligations.ListedWordsDecodeAsListed
  decide

theorem decodeFields_encodeWord (op r s t : Nib) : decodeFields (encodeWord op r s t) = ⟨op, r, s, t⟩ := by
  rw [encodeWord_eq_append, decodeFields_append]

/-- The four fields of a word, side by side, are the word. -/
theorem encodeWord_decodeFields (w : InstrWord) :
    encodeWord (decodeFields w).op (decodeFields w).r (decodeFields w).s (decodeFields w).t = w := by
  rw [encodeWord_eq_append]
  simp only [decodeFields]
  rw [BitVec.extractLsb'_append_extractLsb'_eq_extractLsb' (by rfl),
    BitVec.extractLsb'_append_extractLsb'_eq_extractLsb' (by rfl),
    BitVec.extractLsb'_append_extractLsb'_eq_extractLsb' (by rfl)]
  exact BitVec.extractLsb'_eq_self

theorem fields_of_decode {w : InstrWord} {i : Instr} (h : decode w = .instr i) : i.fields = decodeFields w :=
  fields_of_selectInstr h

/-- Settles O6: the fields of a word determine it, and a decoded instruction has the fields of its word. -/
theorem encodeWordAndDecodeAreInverse : Obligations.EncodeWordAndDecodeAreInverse := by
  refine ⟨decodeFields_encodeWord, encodeWord_decodeFields, fun w i h => ?_⟩
  rw [encode, fields_of_decode h, encodeWord_decodeFields]

end Sys2Proof

namespace Sys2Proof.Machine

theorem nib_toNat {n : Nat} (h : n < 16) : (nib n).toNat = n := by
  rw [nib, BitVec.toNat_ofNat, Nat.mod_eq_of_lt h]

/-- An 8-bit operand is split into nibbles by the assembler and put together by `pack8`. -/
theorem pack8_nib {n : Nat} (h : n < 256) : (pack8 (nib (n / 16)) (nib n)).toNat = n := by
  have hi : (nib (n / 16)).toNat = n / 16 := nib_toNat (by omega)
  have lo : (nib n).toNat = n % 16 := BitVec.toNat_ofNat n 4
  rw [pack8_toNat, hi, lo]
  omega

/-- Operands in range are read back as written. -/
theorem asmOfInstr_instr {i : Asm} (h : i.wellFormed = true) : asmOfInstr i.instr = i := by
  cases i with
  | load1 d a | load2 d a | store d a =>
    obtain ⟨hd, ha⟩ : d < 16 ∧ a < 256 := by simpa [Asm.wellFormed] using h
    simp only [Asm.instr, asmOfInstr, nib_toNat hd, pack8_nib ha]
  | move s d =>
    obtain ⟨hs, hd⟩ : s < 16 ∧ d < 16 := by simpa [Asm.wellFormed] using h
    simp only [Asm.instr, asmOfInstr, nib_toNat hs, nib_toNat hd]
  | add a b d =>
    obtain ⟨⟨ha, hb⟩, hd⟩ : (a < 16 ∧ b < 16) ∧ d < 16 := by simpa [Asm.wellFormed] using h
    simp only [Asm.instr, asmOfInstr, nib_toNat ha, nib_toNat hb, nib_toNat hd]
  | jump a =>
    have ha : a < 256 := by simpa [Asm.wellFormed] using h
    simp only [Asm.instr, asmOfInstr, pack8_nib ha]
  | halt => rfl

/-- The assembler puts 0 in every unused field (30_encoding.md R80). -/
theorem instr_canonical (i : Asm) : i.instr.canonical = true := by
  cases i <;> rfl

theorem disassemble_encode (i : Instr) : disassemble (encode i) = .instr (asmOfInstr i) := by
  simp only [disassemble, decode_encode]

/-- Settles O9: the word of a line is the encoding of a canonical instruction, which the decoder gives back. -/
theorem assemblyRoundTrips : Obligations.AssemblyRoundTrips := by
  intro i
  constructor
  · intro h
    rw [Asm.assemble, if_neg (Bool.eq_false_iff.mp h)]
  · intro h
    refine ⟨encode i.instr, if_pos h, ?_, i.instr, decode_encode i.instr, instr_canonical i⟩
    rw [disassemble_encode, asmOfInstr_instr h]

end Sys2Proof.Machine
end

section
/-! PROOFS. The invariant that every step keeps (10_state.md R35, R38), and its value at reset. -/

namespace Sys2Proof.Machine

theorem effectOf_wf {s : State} (h : s.mem.wf = true) (i : Instr) : (effectOf i s).mem.wf = true := by
  cases i with
  | store r a b => exact State.memWrite_wf h (pack8 a b) (s.reg r)
  | load1 _ _ _ | load2 _ _ _ | move _ _ _ | add _ _ _ | jump _ _ _ | halt _ _ _ => exact h

/-- A JUMP target has eight bits, and no other instruction writes the PC. -/
theorem effectOf_pc_le {s : State} (h : s.pc ≤ 256) (i : Instr) : (effectOf i s).pc ≤ 256 := by
  cases i with
  | jump r a b =>
    rw [BitVec.le_def, effectOf_jump_pc_toNat]
    exact (pack8 a b).isLt.le
  | load1 _ _ _ | load2 _ _ _ | store _ _ _ | move _ _ _ | add _ _ _ | halt _ _ _ => exact h

theorem effectOf_inv {s : State} (h : s.Inv) (hfault : s.pcFault = false) (i : Instr) : (effectOf i s).Inv := by
  obtain ⟨hpc, -, hwf⟩ := h
  exact ⟨effectOf_pc_le hpc i, by simp [hfault], effectOf_wf hwf i⟩

/-- The PC advance of a Running step keeps the invariant: the fetch has checked the PC. -/
theorem State.advance_inv {p : FetchCellPolicy} {s : State} {w : InstrWord} (h : s.Inv)
    (hfetch : fetchUnder p s = .word w) : s.advance.Inv := by
  obtain ⟨-, hflags, hwf⟩ := h
  have hpc : s.pc.toNat ≤ 254 := (pc_inRange_iff s.pc).mp (pc_lt_of_fetchUnder_word hfetch)
  refine ⟨?_, hflags, hwf⟩
  rw [BitVec.le_def, State.advance_pc_toNat hpc]
  exact Nat.add_le_add_right hpc 2

theorem State.setPcFault_inv {s : State} (h : s.Inv) (hrun : s.halted = false) : s.setPcFault.Inv := by
  obtain ⟨hpc, -, hwf⟩ := h
  obtain ⟨hhalt, -⟩ := State.halted_eq_false.mp hrun
  exact ⟨hpc, by simp [hhalt], hwf⟩

/-- Settles O46: each outcome of a step keeps the invariant, a Running state having both flags false. -/
theorem stepKeepsInvariant : Obligations.StepKeepsInvariant := by
  intro p s t hinv hstep
  rcases stepUnder_cases p s with ⟨-, h⟩ | ⟨hrun, -, h⟩ | ⟨w, f, -, hfetch, -, h⟩ | ⟨w, i, hrun, hfetch, -, h⟩ <;>
    obtain rfl := Host.Outcome.next.inj (h.symm.trans hstep)
  · exact hinv
  · exact State.setPcFault_inv hinv hrun
  · exact State.advance_inv hinv hfetch
  · obtain ⟨-, hfault⟩ := State.halted_eq_false.mp hrun
    exact effectOf_inv (State.advance_inv hinv hfetch) hfault i

/-- Settles O11: the reset PC is 0x0A, both flags are false, and no cell is listed. -/
theorem resetMeetsInvariant : Obligations.ResetMeetsInvariant :=
  ⟨by decide, by decide, State.reset_wf⟩

/-- Settles O10: every register is a copy of 0, and a cell that is not listed reads as `Config.memInit`. -/
theorem resetValuesOfEveryElement : Obligations.ResetValuesOfEveryElement :=
  ⟨fun i => Vector.getElem_replicate i.isLt, fun _ => rfl, rfl, rfl, rfl, rfl⟩

end Sys2Proof.Machine
end

section
/-! PROOFS. What a load leaves in the cells, byte by byte and word by word (40_engine_cycle.md R99). -/

namespace Sys2Proof

theorem highByte_toNat (w : InstrWord) : (highByte w).toNat = w.toNat / 256 :=
  calc (highByte w).toNat = w.toNat / 256 % 256 := by
        rw [highByte, BitVec.extractLsb'_toNat, Nat.shiftRight_eq_div_pow]
    _ = w.toNat / 256 := Nat.mod_eq_of_lt (Nat.div_lt_of_lt_mul w.isLt)

theorem lowByte_toNat (w : InstrWord) : (lowByte w).toNat = w.toNat % 256 := by
  rw [lowByte, BitVec.extractLsb'_toNat, Nat.shiftRight_zero]

end Sys2Proof

namespace Sys2Proof.Machine

/-! ### Bytes -/

/-- A load of `n` bytes from cell `a` on leaves the cells from `a + n` on unchanged (R99). -/
theorem loadFrom_read_above (bs : List Byte) {a c : Nat} {m : Memory} (hm : m.wf = true) (h : a + bs.length ≤ c) :
    (loadFrom a bs m).read c = m.read c := by
  induction bs generalizing a m with
  | nil => rfl
  | cons b bs ih =>
    rw [List.length_cons] at h
    rw [loadFrom]
    split_ifs with ha
    · rw [ih (Memory.wf_write hm ha _) (by omega), Memory.read_write hm, if_neg (by omega)]
    · rfl

/-- What each cell holds after a load. -/
theorem loadBytes_memRead (bs : List Byte) {s : State} (hm : s.mem.wf = true) (a : Byte) :
    (loadBytes bs s).1.memRead a = if h : a.toNat < bs.length then zextByte bs[a.toNat] else s.memRead a := by
  split_ifs with h
  · have hread := loadFrom_read_add (a := 0) hm h (by rw [Nat.zero_add]; exact a.isLt)
    rwa [Nat.zero_add] at hread
  · exact loadFrom_read_above bs hm (by rw [Nat.zero_add]; exact Nat.le_of_not_lt h)

/-- Settles O12: a load writes the memory alone, from cell 0 on. -/
theorem loadWritesTheBytesInOrder : Obligations.LoadWritesTheBytesInOrder :=
  fun bs _ hm => ⟨rfl, rfl, rfl, rfl, rfl, loadFrom_wf bs hm, loadBytes_memRead bs hm⟩

/-! ### Words -/

theorem bytesOfWords_length (ws : List InstrWord) : (bytesOfWords ws).length = 2 * ws.length := by
  induction ws with
  | nil => rfl
  | cons w ws ih =>
    simp only [bytesOfWords, List.length_cons, ih]
    omega

/-- Word `k` gives bytes `2k` and `2k + 1`, the high byte first. -/
theorem bytesOfWords_getElem? {ws : List InstrWord} {k : Nat} (h : k < ws.length) :
    (bytesOfWords ws)[2 * k]? = some (highByte ws[k]) ∧ (bytesOfWords ws)[2 * k + 1]? = some (lowByte ws[k]) := by
  induction ws generalizing k with
  | nil => exact absurd h (Nat.not_lt_zero k)
  | cons w ws ih =>
    cases k with
    | zero => exact ⟨rfl, rfl⟩
    | succ k => exact ih (Nat.lt_of_succ_lt_succ h)

/-- A byte of the image that has a cell is in it. -/
theorem loadBytes_memRead_of_getElem? {bs : List Byte} {s : State} (hm : s.mem.wf = true) {c : Nat} (hc : c < 256)
    {b : Byte} (h : bs[c]? = some b) : (loadBytes bs s).1.memRead (BitVec.ofNat 8 c) = zextByte b := by
  obtain ⟨hlen, rfl⟩ := List.getElem?_eq_some_iff.mp h
  have htoNat : (BitVec.ofNat 8 c).toNat = c := by rw [BitVec.toNat_ofNat, Nat.mod_eq_of_lt hc]
  rw [loadBytes_memRead bs hm]
  simp only [htoNat, dif_pos hlen]

/-- Settles O13: the cells hold the bytes in order, and word `k` gives the bytes `2k` and `2k + 1`. -/
theorem loadSplitsWordsHighByteFirst : Obligations.LoadSplitsWordsHighByteFirst := by
  intro ws s hm
  refine ⟨congrArg (min · 256) (bytesOfWords_length ws), fun k h hk => ?_⟩
  obtain ⟨hhi, hlo⟩ := bytesOfWords_getElem? h
  rw [loadWords, loadBytes_memRead_of_getElem? hm (by omega) hhi, loadBytes_memRead_of_getElem? hm (by omega) hlo,
    zextByte_toNat, zextByte_toNat]
  exact ⟨highByte_toNat _, lowByte_toNat _⟩

end Sys2Proof.Machine
end

section
/-! PROOFS. The cycle of a step: its checks in their order, what it does and what it reports (40_engine_cycle.md
section 1; 60_exceptions.md R141 to R143). -/

namespace Sys2Proof

/-- A word whose fields are well formed decodes to an instruction (30_encoding.md R73). -/
theorem decode_of_wellFormed {w : InstrWord} (h : (decodeFields w).wellFormed = true) : ∃ i, decode w = .instr i := by
  cases hd : decode w with
  | instr i => exact ⟨i, rfl⟩
  | invalidOpcode f =>
    obtain ⟨-, hf⟩ := invalid_of_selectInstr hd
    rw [h] at hf
    contradiction

end Sys2Proof

namespace Sys2Proof.Machine

/-! ### Fetch inside the range -/

/-- The first cell of the fetch from a state (20_memory.md R54). -/
def State.fetchHigh (s : State) : Word := s.memRead (BitVec.ofNat 8 s.pc.toNat)

/-- The second cell of the fetch from a state (R54). -/
def State.fetchLow (s : State) : Word := s.memRead (BitVec.ofNat 8 (s.pc.toNat + 1))

/-- The word in the low bytes of the two cells (R54, R55). -/
def State.fetchWord (s : State) : InstrWord := wordOfBytes (cellByte s.fetchHigh) (cellByte s.fetchLow)

theorem State.fetchWord_toNat (s : State) :
    s.fetchWord.toNat = 256 * (s.fetchHigh.toNat % 256) + s.fetchLow.toNat % 256 := by
  rw [State.fetchWord, wordOfBytes_toNat, cellByte, cellByte, BitVec.toNat_setWidth, BitVec.toNat_setWidth]

theorem State.fetchHigh_eq (s : State) : s.memRead (cellOfPc s.pc) = s.fetchHigh := by
  rw [cellOfPc_eq_ofNat, State.fetchHigh]

theorem State.fetchLow_eq {s : State} (h : s.pc.toNat ≤ 254) : s.memRead (cellOfPc (s.pc + 1)) = s.fetchLow := by
  rw [cellOfPc_add_one h, State.fetchLow]

/-- Both cells of the fetch hold a value in [0,255] (R55). -/
abbrev State.FetchesBytes (s : State) : Prop :=
  0 ≤ s.fetchHigh.toInt ∧ s.fetchHigh.toInt ≤ 255 ∧ 0 ≤ s.fetchLow.toInt ∧ s.fetchLow.toInt ≤ 255

theorem State.fetchesBytes_iff {s : State} :
    s.FetchesBytes ↔ isByteCell s.fetchHigh = true ∧ isByteCell s.fetchLow = true := by
  rw [isByteCell_iff, isByteCell_iff, and_assoc]

theorem fetchByte_eq_some {p : FetchCellPolicy} {c : Word} (h : p = .fault → isByteCell c = true) :
    fetchByte p c = some (cellByte c) := by
  cases p with
  | truncate8 => rfl
  | fault => exact fetchByte_of_isByteCell .fault (h rfl)

theorem fetchByte_fault_eq_none {c : Word} (h : isByteCell c = false) : fetchByte .fault c = none := by
  simp [fetchByte, h]

/-- Inside the range a fetch gives the word, unless the `fault` policy finds a cell that is no byte. -/
theorem fetchUnder_eq_word {p : FetchCellPolicy} {s : State} (h : s.pc.toNat ≤ 254)
    (hbytes : p = .fault → s.FetchesBytes) :
    fetchUnder p s = .word s.fetchWord := by
  refine fetchUnder_of_bytes ((pc_inRange_iff s.pc).mpr h) ?_ ?_
  · rw [s.fetchHigh_eq]
    exact fetchByte_eq_some fun hp => (State.fetchesBytes_iff.mp (hbytes hp)).1
  · rw [State.fetchLow_eq h]
    exact fetchByte_eq_some fun hp => (State.fetchesBytes_iff.mp (hbytes hp)).2

theorem fetchUnder_truncate8_eq_word {s : State} (h : s.pc.toNat ≤ 254) :
    fetchUnder .truncate8 s = .word s.fetchWord :=
  fetchUnder_eq_word h fun hp => nomatch hp

theorem fetchUnder_fault_eq_cellNotByte {s : State} (h : s.pc.toNat ≤ 254) (hbytes : ¬s.FetchesBytes) :
    fetchUnder .fault s = .cellNotByte := by
  rw [State.fetchesBytes_iff] at hbytes
  rw [fetchUnder, if_neg ((pc_inRange_iff s.pc).mpr h), s.fetchHigh_eq, State.fetchLow_eq h]
  cases hhi : isByteCell s.fetchHigh with
  | false => simp [fetchByte_fault_eq_none hhi]
  | true =>
    have hlo : isByteCell s.fetchLow = false := Bool.eq_false_iff.mpr fun hlo => hbytes ⟨hhi, hlo⟩
    simp [fetchByte_fault_eq_none hlo]

/-- Settles O16: under `truncate8` every fetch inside the range gives the word of the low bytes. -/
theorem fetchTruncatesEachCell : Obligations.FetchTruncatesEachCell :=
  fun s hpc => ⟨s.fetchWord, fetchUnder_truncate8_eq_word hpc, s.fetchWord_toNat⟩

/-! ### The cycle that each check decides -/

theorem pc_outOfRange_iff (pc : Pc) : 255 ≤ pc ↔ 255 ≤ pc.toNat := BitVec.le_def

theorem cycleUnder_of_halted (p : FetchCellPolicy) {s : State} (h : s.halted = true) : cycleUnder p s = .halted := by
  simp [cycleUnder, h]

theorem cycleUnder_of_pcOutOfRange (p : FetchCellPolicy) {s : State} (hrun : s.halted = false)
    (hpc : 255 ≤ s.pc.toNat) : cycleUnder p s = .pcOutOfRange s.pc := by
  simp [cycleUnder, hrun, fetchUnder_of_pcOutOfRange p ((pc_outOfRange_iff s.pc).mpr hpc)]

theorem cycleUnder_of_cellNotByte {p : FetchCellPolicy} {s : State} (hrun : s.halted = false)
    (hfetch : fetchUnder p s = .cellNotByte) : cycleUnder p s = .cellNotByte s.pc := by
  simp [cycleUnder, hrun, hfetch]

theorem cycleUnder_of_instr {p : FetchCellPolicy} {s : State} {w : InstrWord} {i : Instr} (hrun : s.halted = false)
    (hfetch : fetchUnder p s = .word w) (hdec : decode w = .instr i) : cycleUnder p s = .run i := by
  simp [cycleUnder, hrun, hfetch, hdec]

/-! ### Each check: the step and its diagnostic -/

/-- Settles O17: the cell that is no byte stops the fetch, and the step sets `pc_fault` alone. -/
theorem faultPolicyHaltsOnACellThatIsNoByte : Obligations.FaultPolicyHaltsOnACellThatIsNoByte := by
  rintro s hrun hpc ⟨c, hc, hrange⟩
  have hnot : ¬s.FetchesBytes := by
    rintro ⟨hhi, hhi', hlo, hlo'⟩
    rcases hc with rfl | rfl
    · exact hrange.elim (not_lt.mpr hhi) (not_lt.mpr hhi')
    · exact hrange.elim (not_lt.mpr hlo) (not_lt.mpr hlo')
  have hcycle := cycleUnder_of_cellNotByte hrun (fetchUnder_fault_eq_cellNotByte hpc hnot)
  constructor
  · rw [stepUnder, hcycle]
    rfl
  · rw [diagnosticUnder, hcycle]

/-- Settles O18: the range check of the fetch applies, and the step sets `pc_fault` alone. -/
theorem pcRangeFailureHaltsAndChangesNothingElse : Obligations.PcRangeFailureHaltsAndChangesNothingElse := by
  intro p s hrun hpc
  obtain ⟨hhalt, -⟩ := State.halted_eq_false.mp hrun
  have hcycle := cycleUnder_of_pcOutOfRange p hrun hpc
  refine ⟨?_, ?_, ?_⟩
  · rw [stepUnder, hcycle]
    rfl
  · simp [State.haltCause, hhalt]
  · rw [diagnosticUnder, hcycle]

theorem stepUnder_of_halted (p : FetchCellPolicy) {s : State} (h : s.halted = true) : stepUnder p s = .next s := by
  rw [stepUnder, cycleUnder_of_halted p h, haltedStep]

theorem core_run_succ_of_next {M : Host.Core} {s t : M.State} (h : M.step s = .next t) (k : Nat) :
    M.run (k + 1) s = M.run k t := by
  rw [Host.Core.run, h]

theorem core_run_of_halted {s : State} (h : s.halted = true) (k : Nat) : Host.Core.run core k s = .next s := by
  have hstep : core.step s = .next s := stepUnder_of_halted Config.fetchCellPolicy h
  induction k with
  | zero => rfl
  | succ k ih => exact (core_run_succ_of_next hstep k).trans ih

/-- Settles O19: a Halted state is a fixed point of the step. -/
theorem haltedEngineNeverChanges : Obligations.HaltedEngineNeverChanges := by
  intro s h
  refine ⟨fun p => ⟨stepUnder_of_halted p h, ?_⟩, core_run_of_halted h⟩
  rw [diagnosticUnder, cycleUnder_of_halted p h]

/-- Settles O21: the fetch gives the word of the two cells, whose instruction the step runs. -/
theorem stepRunsTheDecodedInstruction : Obligations.StepRunsTheDecodedInstruction := by
  intro s i hrun hpc _ hdec
  have hcycle : cycleUnder Config.fetchCellPolicy s = .run i :=
    cycleUnder_of_instr hrun (fetchUnder_truncate8_eq_word hpc) hdec
  refine ⟨?_, State.advance_pc_toNat hpc, ?_⟩
  · rw [step, stepUnder, hcycle]
    rfl
  · rw [diagnostic, diagnosticUnder, hcycle]

/-- Settles O22: the checks are taken in their order, and each decides the cycle. -/
theorem diagnosticFollowsThePriority : Obligations.DiagnosticFollowsThePriority := by
  intro p s hi lo w
  by_cases hhalted : s.halt = true ∨ s.pcFault = true
  · rw [if_pos hhalted, diagnosticUnder, cycleUnder_of_halted p (State.halted_eq_true.mpr hhalted)]
  rw [if_neg hhalted]
  have hrun : s.halted = false := Bool.eq_false_iff.mpr (mt State.halted_eq_true.mp hhalted)
  by_cases hpc : 255 ≤ s.pc.toNat
  · rw [if_pos hpc, diagnosticUnder, cycleUnder_of_pcOutOfRange p hrun hpc]
  rw [if_neg hpc]
  have hrange : s.pc.toNat ≤ 254 := Nat.le_of_lt_succ (Nat.lt_of_not_le hpc)
  by_cases hcells : p = .fault ∧ ¬(0 ≤ hi.toInt ∧ hi.toInt ≤ 255 ∧ 0 ≤ lo.toInt ∧ lo.toInt ≤ 255)
  · obtain ⟨rfl, hnot⟩ := hcells
    have hfetch : fetchUnder .fault s = .cellNotByte := fetchUnder_fault_eq_cellNotByte hrange hnot
    rw [if_pos ⟨rfl, hnot⟩, diagnosticUnder, cycleUnder_of_cellNotByte hrun hfetch]
  rw [if_neg hcells]
  have hfetch : fetchUnder p s = .word w :=
    fetchUnder_eq_word hrange fun hp => not_not.mp fun hnot => hcells ⟨hp, hnot⟩
  simp only [← decodeFields_op_toNat w, ← definedOpcode_eq_false_iff]
  by_cases hop : definedOpcode (decodeFields w).op = false
  · rw [if_pos hop, diagnosticUnder, cycleUnder_of_invalidOpcode hrun hfetch (decode_of_not_wellFormed hop),
      BitVec.ofNat_toNat, BitVec.setWidth_eq]
  · obtain ⟨i, hdec⟩ := decode_of_wellFormed (Bool.eq_true_of_not_eq_false hop)
    rw [if_neg hop, diagnosticUnder, cycleUnder_of_instr hrun hfetch hdec]

/-- Settles O23: of the outcomes that report, the failed checks of the fetch set `pc_fault` alone and an invalid
opcode leaves the PC advance. -/
theorem everyConditionIsPrecise : Obligations.EveryConditionIsPrecise := by
  intro p s hdiag
  rcases cycleUnder_cases p s with ⟨-, hc⟩ | ⟨-, -, hc⟩ | ⟨-, -, hc⟩ | ⟨w, f, -, -, -, hc⟩ | ⟨w, i, -, -, -, hc⟩ <;>
    (rw [diagnosticUnder, hc] at hdiag; rw [stepUnder, hc])
  · exact absurd rfl hdiag
  · exact .inl rfl
  · exact .inl rfl
  · exact .inr rfl
  · exact absurd rfl hdiag

/-- Settles O24: each outcome of a step has a next state, and AddressOutOfRange is the diagnostic of none. -/
theorem everyStepCompletesWithoutAddressFailure : Obligations.EveryStepCompletesWithoutAddressFailure := by
  intro p s
  constructor
  · rcases stepUnder_cases p s with ⟨-, h⟩ | ⟨-, -, h⟩ | ⟨_, _, -, -, -, h⟩ | ⟨_, _, -, -, -, h⟩ <;> exact ⟨_, h⟩
  · intro sp a
    rcases diagnosticUnder_cases p s with ⟨-, h⟩ | ⟨-, -, h⟩ | ⟨-, -, h⟩ | ⟨_, _, -, -, -, h⟩ | ⟨_, _, -, -, -, h⟩ <;>
      simp [h]

end Sys2Proof.Machine
end

section
/-! PROOFS. MOVE, ADD, JUMP and HALT: the result and the frame (41_data_movement.md R113; 42_arithmetic.md R120,
R121; 43_control.md R130, R131). -/

namespace Sys2Proof.Machine

/-- Settles O8: the effect of MOVE, JUMP and HALT is written without the fields they ignore (30_encoding.md R75). -/
theorem unusedFieldsChangeNothing : Obligations.UnusedFieldsChangeNothing :=
  fun _ _ _ _ _ _ _ => ⟨rfl, rfl, rfl⟩

/-! ### MOVE -/

/-- Settles O28: the effect is one register write, of the source's Word. -/
theorem moveCopiesTheRegister : Obligations.MoveCopiesTheRegister := by
  intro r s t st
  exact ⟨decode_encode (.move r s t), _, exec_eq_next (.move r s t) st, st.reg_setReg_same r _, st.setReg_frame r _⟩

/-- A register written with the Word it holds leaves the state. -/
theorem State.setReg_reg_self (s : State) (r : Nib) : s.setReg r (s.reg r) = s := by
  rw [State.setReg, State.reg, Vector.set_getElem_self]

/-- Settles O29: the Word written is the one the register holds. -/
theorem moveToItselfChangesNothing : Obligations.MoveToItselfChangesNothing := by
  intro r t st
  rw [exec_eq_next, effectOf, State.setReg_reg_self]

/-! ### ADD -/

/-- `wrapN` keeps the residue modulo 2^N (00_scope.md R23). -/
theorem wrapN_toInt_emod (v : Int) : (wrapN v).toInt % 2 ^ 32 = v % 2 ^ 32 := by
  rw [wrapN, BitVec.toInt_ofInt]
  exact Int.bmod_emod

/-- `clampN` gives the nearest integer of the Word range (R121). -/
theorem clampN_toInt (v : Int) :
    (clampN v).toInt = if 2147483647 < v then 2147483647 else if v < -2147483648 then -2147483648 else v := by
  have clamp : max (-2147483648) (min v 2147483647) =
      if 2147483647 < v then 2147483647 else if v < -2147483648 then -2147483648 else v := by
    split_ifs <;> omega
  rw [clampN, BitVec.toInt_ofInt, Int.bmod_eq_of_le (by omega) (by omega), clamp]

theorem addUnder_comm (p : AddOverflow) (a b : Word) : addUnder p a b = addUnder p b a := by
  cases p with
  | wrap => rw [addUnder, addUnder, Int.add_comm]
  | saturate => rw [addUnder, addUnder, Int.add_comm]

/-- Settles O30: the effect is one register write, of the sum reduced modulo 2^32. -/
theorem addWrapsTheSum : Obligations.AddWrapsTheSum := by
  intro r s t st
  refine ⟨decode_encode (.add r s t), _, exec_eq_next (.add r s t) st, ?_, st.setReg_frame r _⟩
  rw [effectOf, State.reg_setReg_same]
  exact Int.emod_eq_emod_iff_emod_sub_eq_zero.mp (wrapN_toInt_emod _)

/-- Settles O31: the Word written is the sum, exact in range under either policy. -/
theorem addIsExactInsideTheRange : Obligations.AddIsExactInsideTheRange := by
  intro p r s t st hlo hhi
  refine ⟨_, rfl, ?_⟩
  rw [State.reg_setReg_same, addUnder_toInt_of_inRange p hlo hhi]

/-- Settles O32: the effect is one register write, of the clamped sum. -/
theorem saturatingAddClampsTheSum : Obligations.SaturatingAddClampsTheSum := by
  intro r s t st sum
  refine ⟨_, rfl, ?_, st.setReg_frame r _⟩
  rw [State.reg_setReg_same]
  exact clampN_toInt sum

/-- Settles O33: the sum written is symmetric in the two sources. -/
theorem addIsCommutative : Obligations.AddIsCommutative := by
  intro r s t st
  rw [exec_eq_next, exec_eq_next, effectOf, effectOf, addUnder_comm]

/-! ### JUMP and HALT -/

/-- Settles O34: the effect is the PC set to `pack8` of the operand, and nothing else. -/
theorem jumpSetsThePc : Obligations.JumpSetsThePc := by
  intro r s t st
  refine ⟨decode_encode (.jump r s t), _, exec_eq_next (.jump r s t) st, ?_, st.reg_setPc _, st.memRead_setPc _,
    st.setPc_halt _, st.setPc_pcFault _⟩
  rw [effectOf_jump_pc_toNat, pack8_toNat]

theorem State.setHalt_haltCause (s : State) : s.setHalt.haltCause = .halt := by
  rw [State.haltCause, if_pos s.setHalt_halt]

/-- Settles O35: the effect is the HaltFlag set, and nothing else. -/
theorem haltSetsTheHaltFlag : Obligations.HaltSetsTheHaltFlag := by
  intro r s t st
  exact ⟨decode_encode (.halt r s t), _, exec_eq_next (.halt r s t) st, st.setHalt_halt, st.setHalt_haltCause,
    st.reg_setHalt, st.memRead_setHalt, st.setHalt_pc, st.setHalt_pcFault⟩

end Sys2Proof.Machine
end

section
/-! PROOFS. What ends a run, and runs that do not end (10_state.md R37; 40_engine_cycle.md R101;
70_reset_and_hazards.md R167). -/

namespace Sys2Proof.Machine

/-! ### The two flags across a step -/

/-- Settles O40: of what a step can do, only a failed check of the fetch touches `pc_fault`. -/
theorem onlyFetchSetsPcFault : Obligations.OnlyFetchSetsPcFault := by
  intro p s t h
  rcases stepUnder_next_cases h with ⟨hc, rfl⟩ | ⟨hc | hc, rfl⟩ | ⟨op, w, hc, rfl⟩ | ⟨i, hc, rfl⟩ <;>
    simp [endsByFetch, hc]

theorem isHalt_iff (i : Instr) : isHalt i = true ↔ i.fields.op = 0xC := by
  cases i <;> simp [isHalt, Instr.fields]

/-- A Running step ends the run by HALT exactly when the word fetched has HALT's opcode. -/
theorem endsByHalt_iff {p : FetchCellPolicy} {s : State} {w : InstrWord} (hrun : s.halted = false)
    (hfetch : fetchUnder p s = .word w) : endsByHalt p s ↔ (decodeFields w).op = 0xC := by
  cases hdec : decode w with
  | instr i =>
    rw [endsByHalt_of_run (cycleUnder_of_instr hrun hfetch hdec), isHalt_iff, fields_of_decode hdec]
  | invalidOpcode f =>
    obtain ⟨-, hinvalid⟩ := invalid_of_selectInstr hdec
    have hop : (decodeFields w).op ≠ 0xC := by
      intro hop
      rw [Fields.wellFormed, hop] at hinvalid
      contradiction
    simpa [endsByHalt, cycleUnder_of_invalidOpcode hrun hfetch hdec] using hop

/-- A fetch that gives a word ends no run. -/
theorem not_endsByFetch_of_word {p : FetchCellPolicy} {s : State} {w : InstrWord} (hfetch : fetchUnder p s = .word w) :
    ¬endsByFetch p s := by
  rcases cycleUnder_cases p s with ⟨-, hc⟩ | ⟨-, hf, -⟩ | ⟨-, hf, -⟩ | ⟨_, _, -, -, -, hc⟩ | ⟨_, _, -, -, -, hc⟩
  · simp [endsByFetch, hc]
  · exact absurd (hfetch.symm.trans hf) nofun
  · exact absurd (hfetch.symm.trans hf) nofun
  · simp [endsByFetch, hc]
  · simp [endsByFetch, hc]

/-- A Running engine is Halted after a step exactly when the step ends the run. -/
theorem halted_of_step_iff {p : FetchCellPolicy} {s t : State} (hrun : s.halted = false)
    (h : stepUnder p s = .next t) : t.halted = true ↔ endsByHalt p s ∨ endsByFetch p s := by
  obtain ⟨hhalt, hfault⟩ := State.halted_eq_false.mp hrun
  obtain ⟨-, halt_iff⟩ := onlyHaltSetsTheHaltFlag
  rw [State.halted_eq_true, halt_iff p s t h, onlyFetchSetsPcFault p s t h]
  simp [hhalt, hfault]

/-- The opcode of the word fetched is bits [7:4] of the first cell (20_memory.md R54, R55). -/
theorem State.fetchWord_op_eq_iff (s : State) (op : Nib) :
    (decodeFields s.fetchWord).op = op ↔ s.fetchHigh.toNat / 16 % 16 = op.toNat := by
  have hop : (decodeFields s.fetchWord).op.toNat = s.fetchHigh.toNat / 16 % 16 := by
    rw [decodeFields_op_toNat, s.fetchWord_toNat]
    omega
  rw [← hop, BitVec.toNat_inj]

/-- Settles O41: a PC out of range ends the run at the fetch, and inside the range only HALT's opcode ends it. -/
theorem runEndsExactlyByHaltOrPcRange : Obligations.RunEndsExactlyByHaltOrPcRange := by
  intro s t hrun hstep
  rw [halted_of_step_iff hrun hstep]
  by_cases hpc : 255 ≤ s.pc.toNat
  · have hends : endsByFetch Config.fetchCellPolicy s := .inl (cycleUnder_of_pcOutOfRange _ hrun hpc)
    exact iff_of_true (.inr hends) (.inl hpc)
  · have hfetch : fetchUnder Config.fetchCellPolicy s = .word s.fetchWord :=
      fetchUnder_truncate8_eq_word (Nat.le_of_lt_succ (Nat.lt_of_not_le hpc))
    rw [or_iff_left (not_endsByFetch_of_word hfetch), or_iff_right hpc, endsByHalt_iff hrun hfetch]
    exact s.fetchWord_op_eq_iff 0xC

/-! ### Runs -/

theorem run_of_halted {s : State} (h : s.halted = true) (n : Nat) : run n s = some s := by
  cases n <;> rw [run, if_pos h]

theorem run_zero_of_running {s : State} (h : s.halted = false) : run 0 s = none := by
  rw [run, if_neg (Bool.eq_false_iff.mp h)]

theorem run_succ_of_running {s t : State} (h : s.halted = false) (hstep : step s = .next t) (n : Nat) :
    run (n + 1) s = run n t := by
  rw [run, if_neg (Bool.eq_false_iff.mp h), hstep]

/-- A Halted state is where both a run and any number of steps from it end. -/
theorem run_iff_of_halted {s : State} (h : s.halted = true) (n : Nat) (t : State) :
    run n s = some t ↔ Host.Core.run core n s = .next t ∧ t.halted = true := by
  rw [run_of_halted h, core_run_of_halted h]
  constructor
  · rintro ⟨⟩
    exact ⟨rfl, h⟩
  · rintro ⟨⟨⟩, -⟩
    rfl

/-- Settles O42: both sides take the same steps while Running, and stay once Halted. -/
theorem runIsSteppingUntilHalted : Obligations.RunIsSteppingUntilHalted := by
  intro n s t
  induction n generalizing s with
  | zero =>
    cases h : s.halted with
    | true => exact run_iff_of_halted h 0 t
    | false =>
      rw [run_zero_of_running h]
      refine iff_of_false nofun ?_
      rintro ⟨⟨⟩, ht⟩
      exact absurd ht (Bool.eq_false_iff.mp h)
  | succ n ih =>
    cases h : s.halted with
    | true => exact run_iff_of_halted h (n + 1) t
    | false =>
      obtain ⟨u, hu⟩ := step_next s
      rw [run_succ_of_running h hu, ih u, core_run_succ_of_next (M := core) hu n]

/-- A JUMP to the address it was fetched from undoes the PC advance (43_control.md R130). -/
theorem effectOf_jump_advance {s : State} {a b : Nib} (h : (pack8 a b).toNat = s.pc.toNat) (r : Nib) :
    effectOf (.jump r a b) s.advance = s := by
  have hpc : (pack8 a b).setWidth 9 = s.pc := by
    rw [BitVec.toNat_eq, BitVec.toNat_setWidth_of_le (by decide), h]
  rw [effectOf, hpc]
  rfl

/-- Settles O43: the state is a fixed point of the step and is not Halted. -/
theorem jumpToItselfRunsForever : Obligations.JumpToItselfRunsForever := by
  intro s r a b _ hcycle htarget
  have hstep : step s = .next s := by
    rw [step, stepUnder, hcycle]
    exact (exec_eq_next (.jump r a b) s.advance).trans (congrArg Host.Outcome.next (effectOf_jump_advance htarget r))
  have hrun : s.halted = false := Bool.eq_false_iff.mpr fun h => by
    rw [cycleUnder_of_halted _ h] at hcycle
    contradiction
  refine ⟨hstep, fun n => ?_⟩
  induction n with
  | zero => exact run_zero_of_running hrun
  | succ n ih => rw [run_succ_of_running hrun hstep, ih]

end Sys2Proof.Machine
end

section
/-! PROOFS. The cells across an instruction, and canonical memories (20_memory.md sections 5 and 7; 10_state.md R39). -/

namespace Sys2Proof.Machine

/-- Settles O37: of the effects, only the memory write of STORE touches a cell, and it touches one. -/
theorem onlyTheStoredCellChanges : Obligations.OnlyTheStoredCellChanges := by
  intro i st u hwf h a ha
  rw [effectOf_of_exec h]
  cases i with
  | store r x y =>
    have hne : pack8 x y ≠ a := fun heq => ha (congrArg some heq)
    rw [effectOf, State.memRead_memWrite hwf, if_neg hne]
  | load1 _ _ _ | load2 _ _ _ | move _ _ _ | add _ _ _ | jump _ _ _ | halt _ _ _ => rfl

/-- Settles O45: the fetch reads the cell that holds the Word stored, and takes its low byte. -/
theorem storeIsSeenByTheNextFetch : Obligations.StoreIsSeenByTheNextFetch := by
  intro r s t st u v hwf hstore hmem hpc
  have hcell : v.memRead (pack8 s t) = st.reg r :=
    (State.memRead_congr hmem _).trans (memRead_of_exec_store hwf hstore)
  have hread : ∀ c, c = (pack8 s t).toNat → v.memRead (BitVec.ofNat 8 c) = st.reg r := by
    rintro c rfl
    rw [BitVec.ofNat_toNat, BitVec.setWidth_eq, hcell]
  refine ⟨v.fetchWord, fetchUnder_truncate8_eq_word hpc, fun h => ?_, fun h => ?_⟩
  · rw [v.fetchWord_toNat, State.fetchHigh, hread _ h]
    omega
  · rw [v.fetchWord_toNat, State.fetchLow, hread _ h]
    omega

/-! ### Canonical memories that read alike -/

theorem Memory.read_cons_self (k : Nat) (v : Word) (m : Memory) : Memory.read ((k, v) :: m) k = v := by
  rw [Memory.read, if_pos rfl]

theorem Memory.read_cons_of_ne {k a : Nat} (h : k ≠ a) (v : Word) (m : Memory) :
    Memory.read ((k, v) :: m) a = m.read a := by
  rw [Memory.read, if_neg h]

/-- The first listed cell of a canonical memory is the lowest that does not read as `Config.memInit`. -/
theorem Memory.first_le {lo k a : Nat} {v : Word} {m : Memory} (hm : Memory.wfFrom lo ((k, v) :: m) = true)
    (h : Memory.read ((k, v) :: m) a ≠ Config.memInit) : k ≤ a := by
  obtain ⟨-, hk, hv, hm⟩ := Memory.wfFrom_cons.mp hm
  by_contra hlt
  exact h (Memory.read_below (Memory.wfFrom_cons.mpr ⟨le_refl k, hk, hv, hm⟩) (Nat.lt_of_not_le hlt))

/-- Both memories have the same first listed cell, which holds the same Word, and so on along the lists. -/
theorem Memory.eq_of_read_eq {lo lo' : Nat} {m m' : Memory} (hm : Memory.wfFrom lo m = true)
    (hm' : Memory.wfFrom lo' m' = true) (h : ∀ a, a < 256 → m.read a = m'.read a) : m = m' := by
  induction m generalizing lo lo' m' with
  | nil =>
    cases m' with
    | nil => rfl
    | cons e' m' =>
      obtain ⟨k', v'⟩ := e'
      obtain ⟨-, hk', hv', -⟩ := Memory.wfFrom_cons.mp hm'
      have hread := h k' hk'
      rw [Memory.read_cons_self] at hread
      exact absurd hread.symm hv'
  | cons e m ih =>
    obtain ⟨k, v⟩ := e
    obtain ⟨-, hk, hv, hrest⟩ := Memory.wfFrom_cons.mp hm
    cases m' with
    | nil =>
      have hread := h k hk
      rw [Memory.read_cons_self] at hread
      exact absurd hread hv
    | cons e' m' =>
      obtain ⟨k', v'⟩ := e'
      obtain ⟨-, hk', hv', hrest'⟩ := Memory.wfFrom_cons.mp hm'
      have hkk' : k' ≤ k := Memory.first_le hm' (by rwa [← h k hk, Memory.read_cons_self])
      have hk'k : k ≤ k' := Memory.first_le hm (by rwa [h k' hk', Memory.read_cons_self])
      obtain rfl := Nat.le_antisymm hk'k hkk'
      have hvv' : v = v' := by
        have hread := h k hk
        rwa [Memory.read_cons_self, Memory.read_cons_self] at hread
      have htails : m = m' := ih hrest hrest' fun a ha => by
        rcases eq_or_ne k a with rfl | hka
        · rw [Memory.read_below hrest (Nat.lt_succ_self k), Memory.read_below hrest' (Nat.lt_succ_self k)]
        · have hread := h a ha
          rwa [Memory.read_cons_of_ne hka, Memory.read_cons_of_ne hka] at hread
      rw [hvv', htails]

/-- Settles O47: both list the same cells with the same Words. -/
theorem canonicalMemoriesThatReadAlikeAreEqual : Obligations.CanonicalMemoriesThatReadAlikeAreEqual :=
  fun _ _ hm hm' => Memory.eq_of_read_eq hm hm'

end Sys2Proof.Machine
end

section
/-! PROOFS. The checked accessors and the observation port (10_state.md R32; 20_memory.md R51; 40_engine_cycle.md
R100). -/

namespace Sys2Proof.Machine

theorem ofInt_toNat {w : Nat} {a : Int} (h : 0 ≤ a ∧ a < 2 ^ w) : ((BitVec.ofInt w a).toNat : Int) = a := by
  have hmod : a % ((2 ^ w : Nat) : Int) = a := Int.emod_eq_of_lt h.1 (by exact_mod_cast h.2)
  rw [BitVec.toNat_ofInt, hmod, Int.toNat_of_nonneg h.1]

/-- Integers in the range of an index are told apart by it. -/
theorem ofInt_ne_of_inRange {w : Nat} {a b : Int} (ha : 0 ≤ a ∧ a < 2 ^ w) (hb : 0 ≤ b ∧ b < 2 ^ w) (h : a ≠ b) :
    BitVec.ofInt w a ≠ BitVec.ofInt w b :=
  fun heq => h (by rw [← ofInt_toNat ha, heq, ofInt_toNat hb])

theorem readRegister_inRange (s : State) {a : Int} (h : 0 ≤ a ∧ a < 16) :
    readRegister s a = .ok (s.reg (BitVec.ofInt 4 a)) := if_pos h

theorem readRegister_outOfRange (s : State) {a : Int} (h : ¬(0 ≤ a ∧ a < 16)) :
    readRegister s a = .error (.addressOutOfRange .register a) := if_neg h

theorem readMemory_inRange (s : State) {a : Int} (h : 0 ≤ a ∧ a < 256) :
    readMemory s a = .ok (s.memRead (BitVec.ofInt 8 a)) := if_pos h

theorem readMemory_outOfRange (s : State) {a : Int} (h : ¬(0 ≤ a ∧ a < 256)) :
    readMemory s a = .error (.addressOutOfRange .memory a) := if_neg h

/-- Settles O48: inside the range the accessors are the register operations, outside it the check fails. -/
theorem registerInterfaceIsBoundsSafe : Obligations.RegisterInterfaceIsBoundsSafe := by
  intro s a v
  refine ⟨fun ha => ⟨s.setReg (BitVec.ofInt 4 a) v, if_pos ha, ?_, fun b hba => ?_, fun b => rfl⟩,
    fun ha => ⟨readRegister_outOfRange s ha, if_neg ha⟩⟩
  · rw [readRegister_inRange _ ha, State.reg_setReg_same]
  · by_cases hb : 0 ≤ b ∧ b < 16
    · rw [readRegister_inRange _ hb, readRegister_inRange _ hb,
        s.reg_setReg_of_ne v (ofInt_ne_of_inRange (w := 4) ha hb hba.symm)]
    · rw [readRegister_outOfRange _ hb, readRegister_outOfRange _ hb]

/-- Settles O49: inside the range the accessors are the memory operations, outside it the check fails. -/
theorem memoryInterfaceIsBoundsSafe : Obligations.MemoryInterfaceIsBoundsSafe := by
  intro s a v hwf
  refine ⟨fun ha => ⟨s.memWrite (BitVec.ofInt 8 a) v, if_pos ha, ?_, fun b hba => ?_, fun b => rfl⟩,
    fun ha => ⟨readMemory_outOfRange s ha, if_neg ha⟩⟩
  · rw [readMemory_inRange _ ha, State.memRead_memWrite hwf, if_pos rfl]
  · by_cases hb : 0 ≤ b ∧ b < 256
    · rw [readMemory_inRange _ hb, readMemory_inRange _ hb, State.memRead_memWrite hwf,
        if_neg (ofInt_ne_of_inRange (w := 8) ha hb hba.symm)]
    · rw [readMemory_outOfRange _ hb, readMemory_outOfRange _ hb]

/-- Settles O50: the port copies the register file and reads cells 0 to 15. -/
theorem observationShowsRegistersAndFirstCells : Obligations.ObservationShowsRegistersAndFirstCells := by
  intro s k hk
  constructor
  · have htoNat : (BitVec.ofNat 4 k).toNat = k := by rw [BitVec.toNat_ofNat, Nat.mod_eq_of_lt hk]
    simp only [observe, State.reg, htoNat]
  · exact Vector.getElem_ofFn hk

end Sys2Proof.Machine
end

section
/-! PROOFS. The clock edges of the ports (92_eei_decisions.md D12, D13). -/

namespace Sys2Proof.Machine

theorem portLoad_of_enabled {i : PortsIn} {b : Block} (h : i.ldEn = true ∧ b.started = false ∧ b.core.halted = false) :
    portLoad i b = { b with core := b.core.memWrite i.ldAddr (zextByte i.ldData) } := by
  rw [portLoad, if_pos (loadEnabled_eq_true.mpr h)]

theorem portLoad_of_not_enabled {i : PortsIn} {b : Block}
    (h : ¬(i.ldEn = true ∧ b.started = false ∧ b.core.halted = false)) : portLoad i b = b := by
  rw [portLoad, if_neg (mt loadEnabled_eq_true.mp h)]

/-- An edge that neither constructs nor steps is the load alone. -/
theorem edge_of_idle {i : PortsIn} (hrst : i.rst = false) (hstep : i.stepEn = false) (b : Block) :
    edge i b = portLoad i b := by
  rcases edge_cases i b with ⟨h, -⟩ | ⟨-, -, h⟩ | ⟨-, h, -⟩
  · exact absurd h (Bool.eq_false_iff.mp hrst)
  · exact h
  · exact absurd h (Bool.eq_false_iff.mp hstep)

/-- An edge that steps ends with the step, from the block with or without the load. -/
theorem edge_of_step {i : PortsIn} (hrst : i.rst = false) (hstep : i.stepEn = true) (b : Block) :
    ∃ c, (c = b ∨ c = portLoad i b) ∧ edge i b = portStep i c := by
  rcases edge_cases i b with ⟨h, -⟩ | ⟨-, h, -⟩ | ⟨-, -, h⟩
  · exact absurd h (Bool.eq_false_iff.mp hrst)
  · exact absurd hstep (Bool.eq_false_iff.mp h)
  · exact h

theorem edge_of_step_of_no_load {i : PortsIn} (hrst : i.rst = false) (hstep : i.stepEn = true) {b : Block}
    (hload : portLoad i b = b) : edge i b = portStep i b := by
  obtain ⟨c, hc, h⟩ := edge_of_step hrst hstep b
  rw [hload, or_self] at hc
  rw [h, hc]

/-- Settles O52: where no load counts, an edge is the step, or nothing. -/
theorem portEdgeStepsTheCore : Obligations.PortEdgeStepsTheCore := by
  intro i b
  have noLoad : i.ldEn = false ∨ b.started = true → portLoad i b = b := fun h =>
    portLoad_of_not_enabled fun ⟨hld, hstarted, _⟩ => by simp [hld, hstarted] at h
  refine ⟨fun hrst => if_pos hrst, fun hrst hstep h => ?_, fun hrst hstep h => ?_⟩
  · obtain ⟨t, ht⟩ := step_next b.core
    exact ⟨t, ht, (edge_of_step_of_no_load hrst hstep (noLoad h)).trans (portStep_of_step hstep ht)⟩
  · rw [edge_of_idle hrst hstep, noLoad h]

/-- Settles O53: on a Halted core no load counts, and a step changes nothing. -/
theorem onlyConstructionLeavesHalted : Obligations.OnlyConstructionLeavesHalted := by
  intro i b hrst hhalted
  have hload : portLoad i b = b := portLoad_of_not_enabled fun ⟨_, _, hrun⟩ => Bool.eq_false_iff.mp hrun hhalted
  cases hstep : i.stepEn with
  | false => rw [edge_of_idle hrst hstep, hload]
  | true =>
    have ht : step b.core = .next b.core := stepUnder_of_halted _ hhalted
    rw [edge_of_step_of_no_load hrst hstep hload, portStep_of_step hstep ht]

/-- Settles O54: a stepping edge ends with the step, whether the load came before it or not, and an idle edge is the
load alone. -/
theorem noLoadLandsAfterAStep : Obligations.NoLoadLandsAfterAStep := by
  intro i b hrst enabled loaded
  constructor
  · intro hstep
    obtain ⟨c, hc, hedge⟩ := edge_of_step hrst hstep b
    obtain ⟨t, ht⟩ := step_next c.core
    refine ⟨c.core, t, ?_, ht, hedge.trans (portStep_of_step hstep ht)⟩
    rcases hc with rfl | rfl
    · exact .inl rfl
    · by_cases h : enabled
      · exact .inr ⟨h, congrArg Block.core (portLoad_of_enabled h)⟩
      · exact .inl (congrArg Block.core (portLoad_of_not_enabled h))
  · intro hstep
    rw [edge_of_idle hrst hstep]
    exact ⟨portLoad_of_enabled, portLoad_of_not_enabled⟩

/-- The edges of a load write the memory as the load operation does, from any cell on. -/
theorem edges_loadDrive {a : Nat} {bs : List Byte} (h : a + bs.length ≤ 256) {s : State} (hrun : s.halted = false)
    (d : Diagnostic) :
    edges (loadDrive a bs) { core := s, started := false, lastDiag := d } =
      { core := { s with mem := loadFrom a bs s.mem }, started := false, lastDiag := d } := by
  induction bs generalizing a s with
  | nil => rfl
  | cons b bs ih =>
    rw [List.length_cons] at h
    have ha : a < 256 := by omega
    have haddr : (BitVec.ofNat 8 a).toNat = a := by rw [BitVec.toNat_ofNat, Nat.mod_eq_of_lt ha]
    calc edges (loadDrive a (b :: bs)) { core := s, started := false, lastDiag := d }
      _ = edges (loadDrive (a + 1) bs)
            { core := s.memWrite (BitVec.ofNat 8 a) (zextByte b), started := false, lastDiag := d } :=
          congrArg (edges _) ((edge_of_idle rfl rfl _).trans (portLoad_of_enabled ⟨rfl, rfl, hrun⟩))
      _ = { core := { s with mem := loadFrom (a + 1) bs (s.mem.write (BitVec.ofNat 8 a).toNat (zextByte b)) },
            started := false, lastDiag := d } := ih (by omega) hrun
      _ = _ := by rw [haddr, loadFrom, if_pos ha]

/-- Settles O51: the reset block is Running and has made no step, so every byte's load counts. -/
theorem portLoadIsTheLoadOperation : Obligations.PortLoadIsTheLoadOperation := by
  intro bs h
  exact edges_loadDrive (by rwa [Nat.zero_add]) (s := construct) rfl .nothing

end Sys2Proof.Machine
end
